-- ==== Sys2Proof/Word.lean ====
section
/-! DEFINITION. The words of the CFC, at the widths the spec fixes (00_scope.md R7). Every value is unsigned (R9). -/

namespace Sys2Proof

/-- A host data byte, a nodeID, a payload byte (R7: `NODE_W`, host data width). -/
abbrev Byte := BitVec 8

/-- An 11-bit standard CAN identifier, a filter value or a mask (R7: `ID_W`). -/
abbrev Ident := BitVec 11

/-- The three bits of a messageType field: all eight patterns (R7: `TYPE_W`; 90_conflicts.md C6). -/
abbrev TypeBits := BitVec 3

/-- An offset in the 64-byte register window (R7, 20_memory.md R50). -/
abbrev Offset := BitVec 6

/-- The eight payload bytes, byte 0 first (R7: `PAYLOAD_N`; 30_encoding.md R76). -/
abbrev Payload := Vector Byte 8

end Sys2Proof
end

