-- ==== Sys2Proof/Config.lean ====
section
/-! DEFINITION. What the spec leaves open. The fixed parameters of 00_scope.md R7 are the widths of Word.lean, the two slots of
State.lean and the constants of Machine/Operands.lean. The one open parameter, `CFC_BASE` (R8), is an ARGUMENT of the functions that turn
a host address into a window offset (Machine/Ops.lean), because no rule depends on its value (log entry 2). -/

namespace Sys2Proof

/-- FREE VALUE (log entry 4; 20_memory.md R59, 70_reset_and_hazards.md R177). The n-th receive query that overlaps a host access is judged
against the slot file AFTER the access where this is `true`, BEFORE it where this is `false`. No body: a claim holds for both. -/
opaque Config.raceSeesAfter : Nat → Bool

end Sys2Proof
end

