-- ==== Sys2Proof/Syntax.lean ====
section
/-! DEFINITION. The commands of CFC-1: one constructor per row of spec/opcode_table.json (30_encoding.md R70 to R73). -/

namespace Sys2Proof

/-- A command. No command has operand fields (R70). The illegal rows whose low bits are free carry the whole CMD byte, as `Illegal(v)` of
R73 does; `Instr.wf` says that it is a byte of the row (log entry 9). -/
inductive Instr where
  /-- 0x00 NOP (41_control.md R110). -/
  | nop
  /-- 0x01 ENC (40_codec.md R91). -/
  | enc
  /-- 0x02 DEC (40_codec.md R95). -/
  | dec
  /-- 0x03 INIT (41_control.md R111). -/
  | init
  /-- 0x04 FSTRICT (42_filter.md R121). -/
  | fstrict
  /-- 0x05 FFIRST (42_filter.md R124). -/
  | ffirst
  /-- 0x06 MATCH (42_filter.md R128). -/
  | matchIdent
  /-- 0x07, the reserved OP 7 (R73). -/
  | illegalOp7
  /-- 1xxxxxxx: Z != 0, its highest set bit is bit 7 (R73). -/
  | illegalZ7 (v : Byte)
  /-- 01xxxxxx: Z != 0, its highest set bit is bit 6 (R73). -/
  | illegalZ6 (v : Byte)
  /-- 001xxxxx: Z != 0, its highest set bit is bit 5 (R73). -/
  | illegalZ5 (v : Byte)
  /-- 0001xxxx: Z != 0, its highest set bit is bit 4 (R73). -/
  | illegalZ4 (v : Byte)
  /-- 00001xxx: Z != 0, its highest set bit is bit 3 (R73). -/
  | illegalZ3 (v : Byte)
  deriving DecidableEq, Repr

end Sys2Proof
end

