-- ==== Sys2Proof/WellFormed.lean ====
section
/-! DEFINITION. Which terms of `Instr` are commands: an illegal row's byte is one of the row's bytes (spec/opcode_table.json, mask and
match of each row). -/

namespace Sys2Proof

/-- `v` lies in the table row with this mask and match. -/
def inRow (mask value v : Byte) : Bool := v &&& mask == value

/-- Well-formed commands: the byte of an illegal row agrees with the row's fixed bits. -/
def Instr.wf : Instr → Bool
  | .nop => true
  | .enc => true
  | .dec => true
  | .init => true
  | .fstrict => true
  | .ffirst => true
  | .matchIdent => true
  | .illegalOp7 => true
  | .illegalZ7 v => inRow 0x80 0x80 v
  | .illegalZ6 v => inRow 0xC0 0x40 v
  | .illegalZ5 v => inRow 0xE0 0x20 v
  | .illegalZ4 v => inRow 0xF0 0x10 v
  | .illegalZ3 v => inRow 0xF8 0x08 v

/-- The command is one of the seven legal ones (30_encoding.md R72). -/
def Instr.legal : Instr → Bool
  | .nop => true
  | .enc => true
  | .dec => true
  | .init => true
  | .fstrict => true
  | .ffirst => true
  | .matchIdent => true
  | .illegalOp7 => false
  | .illegalZ7 _ => false
  | .illegalZ6 _ => false
  | .illegalZ5 _ => false
  | .illegalZ4 _ => false
  | .illegalZ3 _ => false

end Sys2Proof
end

