-- ==== Sys2Proof/Decode.lean ====
section
/-! DEFINITION. The command decoder (30_encoding.md R70 to R73) and, after it, the encoder. The decoder is total: a byte that is no command
decodes to the illegal row it belongs to, by name, and performing that row is itself an effect the spec gives (R73). -/

namespace Sys2Proof

/-- Field Z = v[7:3] of format CMD8 (R70). -/
def zField (v : Byte) : BitVec 5 := v.extractLsb' 3 5

/-- Field OP = v[2:0] of format CMD8 (R70). -/
def opField (v : Byte) : BitVec 3 := v.extractLsb' 0 3

/-- The illegal row of a byte that is no command: by the highest set bit of Z, or the reserved OP 7 where Z = 0 (R73). -/
def decodeIllegal (v : Byte) : Instr :=
  if v.getLsbD 7 then .illegalZ7 v
  else if v.getLsbD 6 then .illegalZ6 v
  else if v.getLsbD 5 then .illegalZ5 v
  else if v.getLsbD 4 then .illegalZ4 v
  else if v.getLsbD 3 then .illegalZ3 v
  else .illegalOp7

/-- Decoding of a CMD byte (R72): Z must be 0 and OP must not be 7. -/
def decode (v : Byte) : Instr :=
  if zField v ≠ 0 ∨ opField v = 7 then decodeIllegal v
  else match (opField v).toNat with
    | 0 => .nop
    | 1 => .enc
    | 2 => .dec
    | 3 => .init
    | 4 => .fstrict
    | 5 => .ffirst
    | 6 => .matchIdent
    | _ => decodeIllegal v

/-- The CMD byte of a command (R71); an illegal row's byte is the byte it carries. -/
def encode : Instr → Byte
  | .nop => 0x00
  | .enc => 0x01
  | .dec => 0x02
  | .init => 0x03
  | .fstrict => 0x04
  | .ffirst => 0x05
  | .matchIdent => 0x06
  | .illegalOp7 => 0x07
  | .illegalZ7 v => v
  | .illegalZ6 v => v
  | .illegalZ5 v => v
  | .illegalZ4 v => v
  | .illegalZ3 v => v

/-- The one byte of a table word of `nbits` bits. A command is exactly one byte long (R70), so any other length is no command, and neither is
a number that needs more than a byte (log entry 10). -/
def tableByte (nbits w : Nat) : Option Byte :=
  if nbits = 8 ∧ w < 256 then some (BitVec.ofNat 8 w) else none

/-- The command this decoder reads from a word numbered as spec/opcode_table.json numbers it. -/
def decodeTableWord (nbits w : Nat) : Option Instr := (tableByte nbits w).map decode

end Sys2Proof
end

