-- ==== Sys2Proof/Machine/State.lean ====
section
/-! DEFINITION. The state of the CFC (10_state.md R20), the acts of the agents around it, the reasons a step can stop, and the state after
reset (R39). Everything is plain data. -/

namespace Sys2Proof.Machine

/-- The operand registers (R20; R26 to R30): the only registers the host writes. -/
structure Operands where
  /-- IN_NODE, 8 bits (R26). -/
  inNode : Byte
  /-- IN_TYPE, 3 bits, reserved patterns included (R27). -/
  inType : TypeBits
  /-- IN_SW, 1 bit (R28). -/
  inSw : Bool
  /-- IN_ID, 11 bits (R29). -/
  inId : Ident
  /-- IN_D[0..7] (R30). -/
  inD : Payload
  deriving DecidableEq, Repr

/-- The result registers of ENC, which are also the port `tx_frame` (R31, R32, R38). -/
structure Frame where
  /-- OUT_ID, 11 bits (R31). -/
  outId : Ident
  /-- OUT_D[0..7] (R32). -/
  outD : Payload
  deriving DecidableEq, Repr

/-- The result registers of DEC (R33, R34). -/
structure Message where
  /-- OUT_NODE, 8 bits (R33). -/
  outNode : Byte
  /-- OUT_TYPE, the raw 3 bits (R33). -/
  outType : TypeBits
  /-- OUT_SW, 1 bit (R34). -/
  outSw : Bool
  deriving DecidableEq, Repr

/-- MRES, the result of the last MATCH (R25). -/
structure MatchResult where
  /-- MRES bit 0, ACC. -/
  acc : Bool
  /-- MRES bit 1, HIT1. -/
  hit1 : Bool
  /-- MRES bit 2, HIT2. -/
  hit2 : Bool
  deriving DecidableEq, Repr

/-- The error bits of STATUS (R24; 60_exceptions.md R151). -/
structure Status where
  /-- STATUS bit 0, TERR. -/
  terr : Bool
  /-- STATUS bit 1, CERR. -/
  cerr : Bool
  deriving DecidableEq, Repr

/-- One acceptance-filter slot, which is also the port `flt[s]` (R35, R36, R38). -/
structure Slot where
  /-- V1 or V2: the slot holds a configured filter. -/
  valid : Bool
  /-- F1 or F2. -/
  filter : Ident
  /-- M1 or M2: a bit of 1 is compared. -/
  mask : Ident
  deriving DecidableEq, Repr

/-- The slot file and its bookkeeping (R35, R36). V1, V2 and FSLOT are also STATUS bits 3, 4 and 2 (R24); they are stored here only. -/
structure SlotFile where
  /-- FSLOT, PICLIB's `filterSetup`. -/
  fslot : Bool
  /-- Slot 1: (V1, F1, M1). -/
  slot1 : Slot
  /-- Slot 2: (V2, F2, M2). -/
  slot2 : Slot
  deriving DecidableEq, Repr

/-- The whole architectural state of the CFC (R20: "Nothing else is state"). -/
structure Regs where
  operands : Operands
  frame : Frame
  message : Message
  mres : MatchResult
  status : Status
  slots : SlotFile
  deriving DecidableEq, Repr

/-- The named registers of the window (R22). A reserved offset has no name. -/
inductive Reg where
  | cmd | status | mres
  | inNode | inType | inSw | inIdl | inIdh | inD (i : Fin 8)
  | outIdl | outIdh | outNode | outType | outSw | outD (i : Fin 8)
  | f1l | f1h | m1l | m1h | f2l | f2h | m2l | m2h
  deriving DecidableEq, Repr

/-- A host access to the window, by offset (00_scope.md R12; 20_memory.md R50 to R53). Its width is `width`, or the number of data bytes; one
byte is the only width the CFC accepts (log entry 6). -/
inductive HostAccess where
  /-- `MemRead(CFC_BASE + off, width)`. -/
  | read (off : Offset) (width : Nat)
  /-- `MemWrite(CFC_BASE + off, data.length, data)`. -/
  | write (off : Offset) (data : List Byte)
  deriving DecidableEq, Repr

/-- What the receive path offers to the receive port. Only a standard frame is inside the interface (42_filter.md R131; 93 S7). -/
inductive RxFrame where
  /-- A standard data frame with this 11-bit identifier on `rx_id`. -/
  | standard (rxId : Ident)
  /-- An extended frame with a 29-bit identifier. -/
  | extended (rxId : BitVec 29)
  /-- A remote frame. -/
  | remote (rxId : Ident)
  deriving DecidableEq, Repr

/-- The outputs of the receive port (R38; 42_filter.md R131, R132). -/
structure RxAnswer where
  accept : Bool
  hit1 : Bool
  hit2 : Bool
  /-- `rx_buf`: the receive buffer an accepted frame goes to. -/
  buf : Nat
  deriving DecidableEq, Repr

/-- One act of an agent around the CFC. The order of the list `State.inputs` says which agent moves next (log entry 1). -/
inductive Input where
  /-- A host access. -/
  | host (a : HostAccess)
  /-- A query of the receive path at a command boundary. -/
  | query (f : RxFrame)
  /-- A query of the receive path that overlaps a host access (20_memory.md R59; log entry 4). -/
  | overlap (a : HostAccess) (f : RxFrame)
  /-- The reset input takes this level; `true` is asserted (70_reset_and_hazards.md R170; log entry 5). -/
  | resetPin (level : Bool)
  deriving DecidableEq, Repr

/-- The machine: the CFC's registers, and the model's own fields for the agents around it (INVENTORY.md, '## State'). -/
structure State where
  /-- The architectural state of the CFC (R20). -/
  regs : Regs
  /-- MODEL'S OWN: the acts still to come, oldest first (log entry 1). -/
  inputs : List Input
  /-- MODEL'S OWN: the level of the reset input (R170; log entry 5). -/
  resetAsserted : Bool
  /-- MODEL'S OWN: the byte the last host read returned, none before the first (log entry 3). -/
  hostData : Option Byte
  /-- MODEL'S OWN: the last answer on the receive port, none before the first (log entry 3). -/
  rxAnswer : Option RxAnswer
  /-- MODEL'S OWN: how many overlapping queries have been answered; it picks the next free value (log entry 4). -/
  races : Nat
  deriving DecidableEq, Repr

/-- Why the machine faults: never. The CFC has no trap (60_exceptions.md R152), so no constructor (DEDUCED, log entry 7). -/
inductive Fault where
  deriving DecidableEq, Repr

/-- Why the model gives no meaning. All are safe: the machine stops where the interface of the CFC ends. -/
inductive Refusal where
  /-- Raised by `exec` for a command that has no meaning yet; none is left. Safe. -/
  | notModelled (mnemonic : String)
  /-- Raised by a host access that is not one byte wide (20_memory.md R53, 93 S5). Safe. -/
  | accessWidth
  /-- Raised by a host access while reset is asserted (70_reset_and_hazards.md R170, 93 S6). Safe. -/
  | accessDuringReset
  /-- Raised by an extended or remote frame on the receive port (42_filter.md R131, 93 S7). Safe. -/
  | nonStandardFrame
  /-- Raised by loading a host program whose command sequences interleave or can interleave (70_reset_and_hazards.md R176, 93 U8). Safe. -/
  | interleavedSequences
  deriving DecidableEq, Repr

/-- The operand registers after reset (R39): all zero but IN_SW = 1. -/
def Operands.reset : Operands :=
  { inNode := 0x00, inType := 0, inSw := true, inId := 0x000, inD := Vector.replicate 8 0x00 }

/-- An empty slot (R39): Vs = 0, Fs = Ms = 0x000. -/
def Slot.empty : Slot := { valid := false, filter := 0x000, mask := 0x000 }

/-- The slot file after reset (R39), which INIT also leaves (41_control.md R112). -/
def SlotFile.reset : SlotFile := { fslot := false, slot1 := Slot.empty, slot2 := Slot.empty }

/-- MRES after reset (R39). -/
def MatchResult.reset : MatchResult := { acc := false, hit1 := false, hit2 := false }

/-- Every register after reset (R39). -/
def Regs.reset : Regs :=
  { operands := Operands.reset
    frame := { outId := 0x000, outD := Vector.replicate 8 0x00 }
    message := { outNode := 0x00, outType := 0, outSw := false }
    mres := MatchResult.reset
    status := { terr := false, cerr := false }
    slots := SlotFile.reset }

/-- The machine right after reset is released (70_reset_and_hazards.md R170), with nothing asked of it yet (log entry 1). -/
def State.reset : State :=
  { regs := Regs.reset, inputs := [], resetAsserted := false, hostData := none, rxAnswer := none, races := 0 }

/-- The whole operand group replaced. -/
def Regs.withOperands (r : Regs) (o : Operands) : Regs := { r with operands := o }
/-- ENC's results replaced. -/
def Regs.withFrame (r : Regs) (f : Frame) : Regs := { r with frame := f }
/-- DEC's results replaced. -/
def Regs.withMessage (r : Regs) (m : Message) : Regs := { r with message := m }
/-- MRES replaced. -/
def Regs.withMres (r : Regs) (m : MatchResult) : Regs := { r with mres := m }
/-- TERR and CERR replaced. -/
def Regs.withStatus (r : Regs) (st : Status) : Regs := { r with status := st }
/-- The slot file replaced. -/
def Regs.withSlots (r : Regs) (sf : SlotFile) : Regs := { r with slots := sf }

/-- The registers replaced. -/
def State.withRegs (s : State) (r : Regs) : State := { s with regs := r }
/-- The acts to come replaced. -/
def State.withInputs (s : State) (is : List Input) : State := { s with inputs := is }
/-- The level of the reset input replaced. -/
def State.withResetAsserted (s : State) (b : Bool) : State := { s with resetAsserted := b }
/-- The byte returned to the host replaced. -/
def State.withHostData (s : State) (b : Byte) : State := { s with hostData := some b }
/-- The answer on the receive port replaced. -/
def State.withRxAnswer (s : State) (a : RxAnswer) : State := { s with rxAnswer := some a }
/-- The counter of overlapping queries replaced. -/
def State.withRaces (s : State) (n : Nat) : State := { s with races := n }

end Sys2Proof.Machine
end

