-- ==== Sys2Proof/Machine/Operands.lean ====
section
/-! DEFINITION. The shared functions over operands (00_scope.md R13; 30_encoding.md R74 to R77) and the byte order of the 11-bit values
(20_memory.md R54). All of it is unsigned bit work; nothing overflows (40_codec.md R99). -/

namespace Sys2Proof.Machine

/-- EncodeId (R13, R74): `(zext_11(n) << 3) | zext_11(t)`. -/
def encodeId (n : Byte) (t : TypeBits) : Ident := (n.setWidth 11 <<< 3) ||| t.setWidth 11

/-- NodeOf (R13, R75): `id[10:3]`. -/
def nodeOf (ident : Ident) : Byte := ident.extractLsb' 3 8

/-- TypeOf (R13, R75): `id[2:0]`. -/
def typeOf (ident : Ident) : TypeBits := ident.extractLsb' 0 3

/-- IsReservedType (R13): 1 for the types 4 to 7. -/
def isReservedType (t : TypeBits) : Bool := t.getLsbD 2

/-- The defined message types (00_scope.md R16). -/
inductive MessageType where
  | normal | heartbeat | config | complex
  deriving DecidableEq, Repr

/-- The number of a message type (R16). -/
def messageTypeBits : MessageType → TypeBits
  | .normal => 0
  | .heartbeat => 1
  | .config => 2
  | .complex => 3

/-- The message type of a three-bit field, none for a reserved pattern (R16; 90_conflicts.md C6). -/
def messageTypeOf (t : TypeBits) : Option MessageType :=
  match t.toNat with
  | 0 => some .normal
  | 1 => some .heartbeat
  | 2 => some .config
  | 3 => some .complex
  | _ => none

/-- STRICT_MASK (R13): all 11 bits compared. -/
def strictMask : Ident := 0x7FF

/-- FIRSTBIT_MASK (R13, R77): bit 10 and bits 2:0 compared. -/
def firstBitMask : Ident := 0x407

/-- Match (R13): the identifier agrees with the filter in every bit where the mask is 1. -/
def identMatches (f m ident : Ident) : Bool := ((ident ^^^ f) &&& m) == 0

/-- `v[7:0]` of an 11-bit value: its L register (R54). -/
def lowByte (x : Ident) : Byte := x.extractLsb' 0 8

/-- `zext_8(v[10:8])` of an 11-bit value: its H register (R54). -/
def highByte (x : Ident) : Byte := (x.extractLsb' 8 3).setWidth 8

/-- `IN_ID[7:0] <- v`, the other bits kept (10_state.md R29). -/
def setLowByte (x : Ident) (v : Byte) : Ident := (x.extractLsb' 8 3 ++ v).cast rfl

/-- `IN_ID[10:8] <- v[2:0]`, the other bits kept (R29). -/
def setHighBits (x : Ident) (v : Byte) : Ident := (v.extractLsb' 0 3 ++ x.extractLsb' 0 8).cast rfl

/-- A one-bit field as a byte: bit 0, the other bits 0 (10_state.md R22). -/
def bitByte (b : Bool) : Byte := (BitVec.ofBool b).setWidth 8

/-- A three-bit field as a byte: bits 2:0, the other bits 0 (R22). -/
def typeByte (t : TypeBits) : Byte := t.setWidth 8

/-- The payload ENC builds (30_encoding.md R76; 40_codec.md R91, R92): byte 0 is the switch state, bytes 1 to 7 pass through. -/
def framePayload (sw : Bool) (d : Payload) : Payload := d.set 0 (bitByte sw)

/-- The frame ENC builds from its operands (R91). -/
def encodeFrame (o : Operands) : Frame :=
  { outId := encodeId o.inNode o.inType, outD := framePayload o.inSw o.inD }

/-- The message DEC reads from its operands (40_codec.md R95, R96): any non-zero byte 0 is true. -/
def decodeMessage (o : Operands) : Message :=
  { outNode := nodeOf o.inId, outType := typeOf o.inId, outSw := o.inD[0] != 0 }

/-- The filter value of both filter commands (30_encoding.md R77; 42_filter.md R126): the whole EncodeId, uncompared bits included. -/
def filterValue (o : Operands) : Ident := encodeId o.inNode o.inType

end Sys2Proof.Machine
end

