-- ==== Sys2Proof/Machine/Flags.lean ====
section
/-! DEFINITION. The error bits each command writes (60_exceptions.md R150), the acceptance predicate (42_filter.md R127), and the bytes in
which the host reads the flags (10_state.md R24, R25). -/

namespace Sys2Proof.Machine

/-- TERR = CERR = 0: what NOP, INIT and MATCH report (R150). -/
def okStatus : Status := { terr := false, cerr := false }

/-- What ENC, DEC, FSTRICT and FFIRST report of the messageType they used: TERR for a reserved one, CERR = 0 (R150). -/
def typeStatus (t : TypeBits) : Status := { terr := isReservedType t, cerr := false }

/-- What an illegal byte reports: CERR alone (30_encoding.md R73; R153). -/
def illegalStatus : Status := { terr := false, cerr := true }

/-- The STATUS byte `{0b000, V2, V1, FSLOT, CERR, TERR}` (R24). -/
def statusByte (st : Status) (sf : SlotFile) : Byte :=
  (0#3 ++ BitVec.ofBool sf.slot2.valid ++ BitVec.ofBool sf.slot1.valid ++ BitVec.ofBool sf.fslot ++ BitVec.ofBool st.cerr
    ++ BitVec.ofBool st.terr : BitVec 8)

/-- The MRES byte `{0b00000, HIT2, HIT1, ACC}` (R25). -/
def mresByte (m : MatchResult) : Byte :=
  (0#5 ++ BitVec.ofBool m.hit2 ++ BitVec.ofBool m.hit1 ++ BitVec.ofBool m.acc : BitVec 8)

/-- `Vs & Match(Fs, Ms, id)`: the slot is configured and matches (R127). -/
def slotHit (sl : Slot) (ident : Ident) : Bool := sl.valid && identMatches sl.filter sl.mask ident

/-- Hit1 (R127). -/
def hit1 (sf : SlotFile) (ident : Ident) : Bool := slotHit sf.slot1 ident

/-- Hit2 (R127). -/
def hit2 (sf : SlotFile) (ident : Ident) : Bool := slotHit sf.slot2 ident

/-- Accept (R127): some configured slot matches. -/
def accept (sf : SlotFile) (ident : Ident) : Bool := hit1 sf ident || hit2 sf ident

/-- What MATCH writes to MRES (42_filter.md R128). -/
def matchResult (sf : SlotFile) (ident : Ident) : MatchResult :=
  { acc := accept sf ident, hit1 := hit1 sf ident, hit2 := hit2 sf ident }

end Sys2Proof.Machine
end

