-- ==== Sys2Proof/Machine/Ops.lean ====
section
/-! DEFINITION. The named operations over the registers: the register window (10_state.md R22; 20_memory.md R50 to R56), slot placement
(42_filter.md R120) and the illegal command (30_encoding.md R73). The CFC has no memory (R50) and takes no exception: it has no trap and
no return from one (60_exceptions.md R152, R154), so an error is an update of STATUS and the illegal command is the one shared operation for it. -/

namespace Sys2Proof.Machine

/-- The number of bytes of the window (00_scope.md R7). -/
def windowBytes : Nat := 64

/-- The host address of a window offset (R8, R50). `cfcBase` is the platform's `CFC_BASE`. -/
def hostAddress (cfcBase : Nat) (off : Offset) : Nat := cfcBase + off.toNat

/-- The window offset a host address selects; none outside the window, which the CFC does not decode (20_memory.md R56; log entry 2). -/
def windowOffset (cfcBase addr : Nat) : Option Offset :=
  if cfcBase ≤ addr ∧ addr < cfcBase + windowBytes then some (BitVec.ofNat 6 (addr - cfcBase)) else none

/-- A host access by address, as the primitives of 00_scope.md R12 are written. -/
inductive BusAccess where
  /-- `MemRead(addr, width)`. -/
  | memRead (addr width : Nat)
  /-- `MemWrite(addr, data.length, data)`. -/
  | memWrite (addr : Nat) (data : List Byte)
  deriving DecidableEq, Repr

/-- The offset of the first byte of the window that an access of `width` bytes from `addr` on touches; none where it touches none (R56; log
entry 2). An access of no bytes counts by its address. -/
def busOffset (cfcBase addr width : Nat) : Option Offset :=
  if cfcBase < addr + max width 1 then windowOffset cfcBase (max cfcBase addr) else none

/-- The access the CFC sees of a host access by address: none where no byte of it lies in the window (R56; log entry 2). An access that reaches
the window keeps its width, wherever it starts, so that the host access refuses one that is not one byte wide (20_memory.md R53). -/
def busSelect (cfcBase : Nat) : BusAccess → Option HostAccess
  | .memRead addr width => (busOffset cfcBase addr width).map (.read · width)
  | .memWrite addr data => (busOffset cfcBase addr data.length).map (.write · data)

/-- The offset of a named register (R22). -/
def regOffset : Reg → Offset
  | .cmd => 0x00 | .status => 0x01 | .mres => 0x02
  | .inNode => 0x04 | .inType => 0x05 | .inSw => 0x06 | .inIdl => 0x08 | .inIdh => 0x09
  | .inD i => 0x10 + BitVec.ofNat 6 i.val
  | .outIdl => 0x18 | .outIdh => 0x19 | .outNode => 0x1A | .outType => 0x1B | .outSw => 0x1C
  | .outD i => 0x20 + BitVec.ofNat 6 i.val
  | .f1l => 0x28 | .f1h => 0x29 | .m1l => 0x2A | .m1h => 0x2B | .f2l => 0x2C | .f2h => 0x2D | .m2l => 0x2E | .m2h => 0x2F

/-- The named register at an offset; none where the offset is reserved (R22). -/
def regAt (off : Offset) : Option Reg :=
  match off.toNat with
  | 0x00 => some .cmd | 0x01 => some .status | 0x02 => some .mres
  | 0x04 => some .inNode | 0x05 => some .inType | 0x06 => some .inSw | 0x08 => some .inIdl | 0x09 => some .inIdh
  | 0x10 => some (.inD 0) | 0x11 => some (.inD 1) | 0x12 => some (.inD 2) | 0x13 => some (.inD 3)
  | 0x14 => some (.inD 4) | 0x15 => some (.inD 5) | 0x16 => some (.inD 6) | 0x17 => some (.inD 7)
  | 0x18 => some .outIdl | 0x19 => some .outIdh | 0x1A => some .outNode | 0x1B => some .outType | 0x1C => some .outSw
  | 0x20 => some (.outD 0) | 0x21 => some (.outD 1) | 0x22 => some (.outD 2) | 0x23 => some (.outD 3)
  | 0x24 => some (.outD 4) | 0x25 => some (.outD 5) | 0x26 => some (.outD 6) | 0x27 => some (.outD 7)
  | 0x28 => some .f1l | 0x29 => some .f1h | 0x2A => some .m1l | 0x2B => some .m1h
  | 0x2C => some .f2l | 0x2D => some .f2h | 0x2E => some .m2l | 0x2F => some .m2h
  | _ => none

/-- The byte the host reads in a register (R22 to R35): its held bits, every other bit 0; CMD reads 0x00 (R23). -/
def readReg (r : Regs) : Reg → Byte
  | .cmd => 0x00
  | .status => statusByte r.status r.slots
  | .mres => mresByte r.mres
  | .inNode => r.operands.inNode
  | .inType => typeByte r.operands.inType
  | .inSw => bitByte r.operands.inSw
  | .inIdl => lowByte r.operands.inId
  | .inIdh => highByte r.operands.inId
  | .inD i => r.operands.inD[i]
  | .outIdl => lowByte r.frame.outId
  | .outIdh => highByte r.frame.outId
  | .outNode => r.message.outNode
  | .outType => typeByte r.message.outType
  | .outSw => bitByte r.message.outSw
  | .outD i => r.frame.outD[i]
  | .f1l => lowByte r.slots.slot1.filter
  | .f1h => highByte r.slots.slot1.filter
  | .m1l => lowByte r.slots.slot1.mask
  | .m1h => highByte r.slots.slot1.mask
  | .f2l => lowByte r.slots.slot2.filter
  | .f2h => highByte r.slots.slot2.filter
  | .m2l => lowByte r.slots.slot2.mask
  | .m2h => highByte r.slots.slot2.mask

/-- A host read of one byte (20_memory.md R51): reserved offsets read 0x00. -/
def readByte (r : Regs) (off : Offset) : Byte :=
  match regAt off with
  | some reg => readReg r reg
  | none => 0x00

/-- A host write of `v` to a register other than CMD (20_memory.md R52): an operand register takes the bits it holds, any other register
ignores the write. -/
def writeOperand (o : Operands) (v : Byte) : Reg → Operands
  | .inNode => { o with inNode := v }
  | .inType => { o with inType := v.extractLsb' 0 3 }
  | .inSw => { o with inSw := v.getLsbD 0 }
  | .inIdl => { o with inId := setLowByte o.inId v }
  | .inIdh => { o with inId := setHighBits o.inId v }
  | .inD i => { o with inD := o.inD.set i v }
  | _ => o

/-- A host write of one byte at an offset other than CMD's (R52): reserved offsets ignore it. -/
def writeByte (r : Regs) (off : Offset) (v : Byte) : Regs :=
  match regAt off with
  | some reg => r.withOperands (writeOperand r.operands v reg)
  | none => r

/-- A configured slot holding the pair (F, M) (42_filter.md R120). -/
def configuredSlot (f m : Ident) : Slot := { valid := true, filter := f, mask := m }

/-- PlaceFilter (R120; 90_conflicts.md C1): slot 1 while FSLOT is 0, slot 2 from then on. -/
def placeFilter (sf : SlotFile) (f m : Ident) : SlotFile :=
  if sf.fslot then { sf with slot2 := configuredSlot f m }
  else { sf with fslot := true, slot1 := configuredSlot f m }

/-- The registers after a filter command with this mask (R121, R124): a reserved type is rejected and changes no slot. -/
def filterRegs (m : Ident) (r : Regs) : Regs :=
  if isReservedType r.operands.inType then r.withStatus (typeStatus r.operands.inType)
  else (r.withSlots (placeFilter r.slots (filterValue r.operands) m)).withStatus (typeStatus r.operands.inType)

/-- `Illegal(v)` (30_encoding.md R73): CERR = 1, TERR = 0, nothing else; the byte is not kept (60_exceptions.md R151). -/
def illegal (_v : Byte) (s : State) : State := s.withRegs (s.regs.withStatus illegalStatus)

end Sys2Proof.Machine
end

