-- ==== Sys2Proof/Machine/Codec.lean ====
section
/-! DEFINITION. The frame codec commands ENC and DEC (40_codec.md). Every result is computed from the registers before the command
(00_scope.md R11). -/

namespace Sys2Proof.Machine

/-- ENC (R91): a reserved type is rejected with TERR and no result is written. -/
def execEnc (s : State) : Host.Outcome State Fault Refusal :=
  if isReservedType s.regs.operands.inType then
    .next (s.withRegs (s.regs.withStatus (typeStatus s.regs.operands.inType)))
  else
    .next (s.withRegs ((s.regs.withFrame (encodeFrame s.regs.operands)).withStatus (typeStatus s.regs.operands.inType)))

/-- DEC (R95, R97, R98): the raw fields are written on a reserved type too, and TERR reports it. -/
def execDec (s : State) : Host.Outcome State Fault Refusal :=
  .next (s.withRegs
    ((s.regs.withMessage (decodeMessage s.regs.operands)).withStatus (typeStatus (typeOf s.regs.operands.inId))))

end Sys2Proof.Machine
end

