-- ==== Sys2Proof/Machine/Control.lean ====
section
/-! DEFINITION. The control commands NOP and INIT (41_control.md) and the illegal bytes (30_encoding.md R73). -/

namespace Sys2Proof.Machine

/-- NOP (R110): clears TERR and CERR. -/
def execNop (s : State) : Host.Outcome State Fault Refusal :=
  .next (s.withRegs (s.regs.withStatus okStatus))

/-- INIT (R111): the slot file, its bookkeeping, MRES, TERR and CERR cleared; operands and the other results kept. -/
def execInit (s : State) : Host.Outcome State Fault Refusal :=
  .next (s.withRegs (((s.regs.withSlots SlotFile.reset).withMres MatchResult.reset).withStatus okStatus))

/-- Byte 0x07, the reserved OP 7 (R73). -/
def execIllegalOp7 (s : State) : Host.Outcome State Fault Refusal := .next (illegal 0x07 s)

/-- Bytes 1xxxxxxx (R73). -/
def execIllegalZ7 (v : Byte) (s : State) : Host.Outcome State Fault Refusal := .next (illegal v s)

/-- Bytes 01xxxxxx (R73). -/
def execIllegalZ6 (v : Byte) (s : State) : Host.Outcome State Fault Refusal := .next (illegal v s)

/-- Bytes 001xxxxx (R73). -/
def execIllegalZ5 (v : Byte) (s : State) : Host.Outcome State Fault Refusal := .next (illegal v s)

/-- Bytes 0001xxxx (R73). -/
def execIllegalZ4 (v : Byte) (s : State) : Host.Outcome State Fault Refusal := .next (illegal v s)

/-- Bytes 00001xxx (R73). -/
def execIllegalZ3 (v : Byte) (s : State) : Host.Outcome State Fault Refusal := .next (illegal v s)

end Sys2Proof.Machine
end

