-- ==== Sys2Proof/Machine/Filter.lean ====
section
/-! DEFINITION. The acceptance-filter commands FSTRICT, FFIRST and MATCH (42_filter.md). -/

namespace Sys2Proof.Machine

/-- FSTRICT (R121): the strict filter into the slot FSLOT selects. -/
def execFstrict (s : State) : Host.Outcome State Fault Refusal := .next (s.withRegs (filterRegs strictMask s.regs))

/-- FFIRST (R124): the first-bit filter into the slot FSLOT selects. -/
def execFfirst (s : State) : Host.Outcome State Fault Refusal := .next (s.withRegs (filterRegs firstBitMask s.regs))

/-- MATCH (R128): the slot file applied to IN_ID; any identifier is accepted as an operand. -/
def execMatch (s : State) : Host.Outcome State Fault Refusal :=
  .next (s.withRegs ((s.regs.withMres (matchResult s.regs.slots s.regs.operands.inId)).withStatus okStatus))

end Sys2Proof.Machine
end

