-- ==== Sys2Proof/Machine/Dispatch.lean ====
section
/-! DEFINITION. One arm per command. -/

namespace Sys2Proof.Machine

/-- The effect of one command (30_encoding.md R72). -/
def exec (i : Instr) (s : State) : Host.Outcome State Fault Refusal :=
  match i with
  | .nop => Sys2Proof.Machine.execNop s
  | .enc => Sys2Proof.Machine.execEnc s
  | .dec => Sys2Proof.Machine.execDec s
  | .init => Sys2Proof.Machine.execInit s
  | .fstrict => Sys2Proof.Machine.execFstrict s
  | .ffirst => Sys2Proof.Machine.execFfirst s
  | .matchIdent => Sys2Proof.Machine.execMatch s
  | .illegalOp7 => Sys2Proof.Machine.execIllegalOp7 s
  | .illegalZ7 v => Sys2Proof.Machine.execIllegalZ7 v s
  | .illegalZ6 v => Sys2Proof.Machine.execIllegalZ6 v s
  | .illegalZ5 v => Sys2Proof.Machine.execIllegalZ5 v s
  | .illegalZ4 v => Sys2Proof.Machine.execIllegalZ4 v s
  | .illegalZ3 v => Sys2Proof.Machine.execIllegalZ3 v s

end Sys2Proof.Machine
end

