-- ==== Sys2Proof/Machine/Ports.lean ====
section
/-! DEFINITION. The ports beside the register window (10_state.md R38; 42_filter.md R131 to R133) and the reset input
(70_reset_and_hazards.md R170). Every output is a function of the registers alone. -/

namespace Sys2Proof.Machine

/-- The output `tx_frame` (R38): the pair (OUT_ID, OUT_D), with no strobe. -/
def txFrame (r : Regs) : Frame := r.frame

/-- The output `flt[1]` (R38, R133). -/
def flt1 (r : Regs) : Slot := r.slots.slot1

/-- The output `flt[2]` (R38, R133). -/
def flt2 (r : Regs) : Slot := r.slots.slot2

/-- `rx_buf`, the constant 0 (R132). -/
def rxBuf : Nat := 0

/-- The answer of the receive port to an identifier (R131). It does not depend on IN_ID. -/
def rxPort (r : Regs) (rxId : Ident) : RxAnswer :=
  { accept := accept r.slots rxId, hit1 := hit1 r.slots rxId, hit2 := hit2 r.slots rxId, buf := rxBuf }

/-- A query of the receive path answered from the registers `judged`, in state `s` (R131). No register changes. A frame that is not a
standard one is outside the interface (93 S7). -/
def answerQuery (f : RxFrame) (judged : Regs) (s : State) : Host.Outcome State Fault Refusal :=
  match f with
  | .standard rxId => .next (s.withRxAnswer (rxPort judged rxId))
  | .extended _ => .refused .nonStandardFrame
  | .remote _ => .refused .nonStandardFrame

/-- The reset input takes a level (R170): every register takes its reset value while it is asserted and when it is released (log entry 5). -/
def setResetPin (level : Bool) (s : State) : State :=
  if level || s.resetAsserted then (s.withRegs Regs.reset).withResetAsserted level else s

end Sys2Proof.Machine
end

