-- ==== Sys2Proof/Machine/Access.lean ====
section
/-! DEFINITION. What one act of an agent around the CFC does: a host access (20_memory.md R51 to R53), a command (30_encoding.md R72), a
query of the receive path (42_filter.md R131), the two overlapping (20_memory.md R59), a level of the reset input. -/

namespace Sys2Proof.Machine

/-- A host write of byte `v` to CMD (R23, R72): the command it encodes, performed whole before the next access (R180). -/
def command (v : Byte) (s : State) : Host.Outcome State Fault Refusal := exec (decode v) s

/-- A host read of `width` bytes (R51, R53). -/
def hostRead (off : Offset) (width : Nat) (s : State) : Host.Outcome State Fault Refusal :=
  if width = 1 then .next (s.withHostData (readByte s.regs off)) else .refused .accessWidth

/-- A host write (R52, R53): one byte, to CMD or to another offset. -/
def hostWrite (off : Offset) (data : List Byte) (s : State) : Host.Outcome State Fault Refusal :=
  match data with
  | [v] => if off = regOffset .cmd then command v s else .next (s.withRegs (writeByte s.regs off v))
  | _ => .refused .accessWidth

/-- A host access; refused while reset is asserted (70_reset_and_hazards.md R170). -/
def hostAccess (a : HostAccess) (s : State) : Host.Outcome State Fault Refusal :=
  if s.resetAsserted then .refused .accessDuringReset
  else match a with
    | .read off width => hostRead off width s
    | .write off data => hostWrite off data s

/-- The registers an overlapping query is judged against: those after the access or those before it, by the next free value (R59, R177; log
entry 4). They are whole register files, so no slot is seen half-written. -/
def judgedRegs (n : Nat) (before after : Regs) : Regs := if Config.raceSeesAfter n then after else before

/-- A host access with a query of the receive path overlapping it (R59). -/
def overlapped (a : HostAccess) (f : RxFrame) (s : State) : Host.Outcome State Fault Refusal :=
  match hostAccess a s with
  | .next t => answerQuery f (judgedRegs s.races s.regs t.regs) (t.withRaces (s.races + 1))
  | .fault r => .fault r
  | .refused r => .refused r

/-- One act of an agent. -/
def perform (i : Input) (s : State) : Host.Outcome State Fault Refusal :=
  match i with
  | .host a => hostAccess a s
  | .query f => answerQuery f s.regs s
  | .overlap a f => overlapped a f s
  | .resetPin level => .next (setResetPin level s)

/-- The next act; with none, the machine holds its state (60_exceptions.md R163; log entry 1). -/
def performNext (s : State) : Host.Outcome State Fault Refusal :=
  match s.inputs with
  | [] => .next s
  | i :: rest => perform i (s.withInputs rest)

/-- The CMD write that carries a table word: the word's bits above `nbits` are 0, and a command is one byte (R70). -/
def commandWrite (nbits w : Nat) : Input := .host (.write (regOffset .cmd) [BitVec.ofNat 8 (w % 2 ^ nbits)])

end Sys2Proof.Machine
end

