-- ==== Sys2Proof/Machine/Step.lean ====
section
/-! DEFINITION. One step: the next act of an agent around the CFC (70_reset_and_hazards.md R181: each host access is one step). -/

namespace Sys2Proof.Machine

/-- One step of the machine. -/
def step (s : State) : Host.Outcome State Fault Refusal := performNext s

/-- The state in which the very next step is the host's write of this table word to CMD: the write comes first among the acts to come, and
reset is released, because a write during reset is outside the interface (log entries 1 and 10). -/
def State.withFetchWord (s : State) (nbits w : Nat) : State :=
  (s.withInputs (commandWrite nbits w :: s.inputs)).withResetAsserted false

end Sys2Proof.Machine
end

