-- ==== Sys2Proof/Machine/Program.lean ====
section
/-! DEFINITION. Host programs: the lines WR, RD and CMD (30_encoding.md R78), the pseudo-operations (R79), the start-up order
(70_reset_and_hazards.md R173), and loading a program: one given as an order of accesses, and one given as a foreground with the interrupt
handlers that can intervene in it; both are refused where command sequences interleave (R176). -/

namespace Sys2Proof.Machine

/-- `WR <reg>, <imm8>` (R78). -/
def lineWr (r : Reg) (imm : Byte) : HostAccess := .write (regOffset r) [imm]

/-- `WR` with a hexadecimal offset (R78). -/
def lineWrAt (off : Offset) (imm : Byte) : HostAccess := .write off [imm]

/-- `RD <reg>` (R78). -/
def lineRd (r : Reg) : HostAccess := .read (regOffset r) 1

/-- `RD` with a hexadecimal offset (R78). -/
def lineRdAt (off : Offset) : HostAccess := .read off 1

/-- `CMD <mnemonic>` (R78): a write of the command's byte to CMD. -/
def lineCmd (i : Instr) : HostAccess := lineWr .cmd (encode i)

/-- `encode n, t, s` (R79). A byte is written to each operand register, as `<imm8>` is. -/
def pseudoEncode (n t sw : Byte) : List HostAccess :=
  [lineWr .inNode n, lineWr .inType t, lineWr .inSw sw, lineCmd .enc]

/-- `encode_payload d1..d7` (R79). -/
def pseudoEncodePayload (d1 d2 d3 d4 d5 d6 d7 : Byte) : List HostAccess :=
  [lineWr (.inD 1) d1, lineWr (.inD 2) d2, lineWr (.inD 3) d3, lineWr (.inD 4) d4, lineWr (.inD 5) d5, lineWr (.inD 6) d6,
    lineWr (.inD 7) d7]

/-- `decode id, b0` (R79). -/
def pseudoDecode (ident : Ident) (b0 : Byte) : List HostAccess :=
  [lineWr .inIdl (lowByte ident), lineWr .inIdh (highByte ident), lineWr (.inD 0) b0, lineCmd .dec]

/-- `initialize` (R79). -/
def pseudoInitialize : List HostAccess := [lineCmd .init]

/-- `setupStrictReceiveFilter n, t` (R79). -/
def pseudoStrictFilter (n t : Byte) : List HostAccess := [lineWr .inNode n, lineWr .inType t, lineCmd .fstrict]

/-- `setupFirstBitIdReceiveFilter n, t` (R79). -/
def pseudoFirstBitFilter (n t : Byte) : List HostAccess := [lineWr .inNode n, lineWr .inType t, lineCmd .ffirst]

/-- `match id` (R79). -/
def pseudoMatch (ident : Ident) : List HostAccess :=
  [lineWr .inIdl (lowByte ident), lineWr .inIdh (highByte ident), lineCmd .matchIdent]

/-- `send n, t, s` (R79): `encode`, then the reads of the frame; handing it to the controller is out of scope (00_scope.md R5). -/
def pseudoSend (n t sw : Byte) : List HostAccess :=
  pseudoEncode n t sw ++
    [lineRd .outIdl, lineRd .outIdh, lineRd (.outD 0), lineRd (.outD 1), lineRd (.outD 2), lineRd (.outD 3), lineRd (.outD 4),
      lineRd (.outD 5), lineRd (.outD 6), lineRd (.outD 7)]

/-- The host's acts for a list of accesses. -/
def hostInputs (p : List HostAccess) : List Input := p.map .host

/-- The acts the CFC sees of accesses by address: those outside the window do not reach it (20_memory.md R56; log entry 2). -/
def busInputs (cfcBase : Nat) (p : List BusAccess) : List Input := hostInputs (p.filterMap (busSelect cfcBase))

/-- The start-up order (R173): a reset pulse, INIT once, then the rest. -/
def startUp (p : List HostAccess) : List Input :=
  .resetPin true :: .resetPin false :: hostInputs (pseudoInitialize ++ p)

/-- A command sequence of a host program: the operand writes, the CMD write and the result reads that belong together (R176). `piece` is the
run of host code that makes it, 0 for the foreground and n for the n-th run of a handler; `number` tells the sequences of one run apart. -/
structure SequenceId where
  piece : Nat
  number : Nat
  deriving DecidableEq, Repr

/-- One access of a host program, with the command sequence it belongs to (R176). -/
structure SequencedAccess where
  seq : SequenceId
  access : HostAccess
  deriving DecidableEq, Repr

/-- The accesses from the first one that belongs to another sequence than `n` on. -/
def afterSequence (n : SequenceId) : List SequencedAccess → List SequencedAccess
  | [] => []
  | a :: rest => if a.seq = n then afterSequence n rest else a :: rest

/-- No command sequence is entered again after another one has begun (R176). -/
def noInterleaving : List SequencedAccess → Bool
  | [] => true
  | a :: rest => (afterSequence a.seq rest).all (fun b => b.seq != a.seq) && noInterleaving rest

/-- The acts of an order of accesses. -/
def orderInputs (order : List SequencedAccess) : List Input := hostInputs (order.map (·.access))

/-- A host program given as the one order of its accesses, placed before the machine: refused where command sequences interleave (R176, D30;
log entry 8). -/
def loadProgram (p : List SequencedAccess) (s : State) : Host.Outcome State Fault Refusal :=
  if noInterleaving p then .next (s.withInputs (orderInputs p)) else .refused .interleavedSequences

/-- One operation of host code, as far as the CFC and R176 are concerned (log entry 14). -/
inductive HostOp where
  /-- An access that belongs to the piece's sequence `number`. -/
  | access (number : Nat) (a : HostAccess)
  /-- Interrupts are disabled: the start of a critical register sequence. -/
  | maskInterrupts
  /-- Interrupts are enabled. -/
  | unmaskInterrupts
  deriving DecidableEq, Repr

/-- A piece of host code still to run: whether interrupts are masked at its start, and its operations. -/
structure HostCode where
  masked : Bool
  ops : List HostOp
  deriving DecidableEq, Repr

/-- A host program (R176): the foreground, and the interrupt handlers, any of which may run at any point where interrupts are not masked. -/
structure HostProgram where
  foreground : HostCode
  handlers : List HostCode
  deriving DecidableEq, Repr

/-- Whether interrupts are masked after an operation. -/
def HostOp.maskedAfter (masked : Bool) : HostOp → Bool
  | .access _ _ => masked
  | .maskInterrupts => true
  | .unmaskInterrupts => false

/-- The access an operation of run `piece` makes. -/
def HostOp.made (piece : Nat) : HostOp → Option SequencedAccess
  | .access number a => some { seq := { piece := piece, number := number }, access := a }
  | .maskInterrupts => none
  | .unmaskInterrupts => none

/-- The accesses that operations make in run `piece` where nothing intervenes. -/
def accessesMade (piece : Nat) (ops : List HostOp) : List SequencedAccess := ops.filterMap (HostOp.made piece)

/-- What happens next on the host: the running code goes on by one operation or returns, or handler `k` is asked for. -/
inductive HostEvent where
  | go
  | interrupt (k : Nat)
  deriving DecidableEq, Repr

/-- A run of a piece of host code: its number and what is left of the code. -/
structure Activation where
  piece : Nat
  code : HostCode
  deriving DecidableEq, Repr

/-- The host while it runs: the running piece, those it interrupted below it, innermost first, and how many handler runs have begun. -/
structure HostRun where
  running : Activation
  below : List Activation
  started : Nat
  deriving DecidableEq, Repr

/-- The host at the start of a program. -/
def HostRun.start (p : HostProgram) : HostRun :=
  { running := { piece := 0, code := p.foreground }, below := [], started := 0 }

/-- The running piece goes on by one operation; a handler at its end returns to what it interrupted, the foreground at its end stays. -/
def HostRun.go (r : HostRun) : HostRun :=
  match r.running.code.ops, r.below with
  | op :: ops, _ => { r with running := { r.running with code := { masked := op.maskedAfter r.running.code.masked, ops := ops } } }
  | [], a :: below => { r with running := a, below := below }
  | [], [] => r

/-- Handler `k` begins, where it exists and interrupts are not masked; otherwise nothing happens. -/
def HostRun.interrupt (p : HostProgram) (k : Nat) (r : HostRun) : HostRun :=
  match r.running.code.masked, p.handlers[k]? with
  | false, some h =>
    { running := { piece := r.started + 1, code := h }, below := r.running :: r.below, started := r.started + 1 }
  | _, _ => r

/-- One event on the host. -/
def HostRun.after (p : HostProgram) (r : HostRun) : HostEvent → HostRun
  | .go => r.go
  | .interrupt k => r.interrupt p k

/-- The access an event makes: that of the operation the running piece goes on by. -/
def HostRun.made (r : HostRun) : HostEvent → Option SequencedAccess
  | .go => r.running.code.ops.head?.bind (HostOp.made r.running.piece)
  | .interrupt _ => none

/-- The order in which the accesses of a program reach the CFC, from the host `r` on, where these events happen. -/
def HostRun.order (p : HostProgram) (r : HostRun) : List HostEvent → List SequencedAccess
  | [] => []
  | e :: events => (r.made e).toList ++ (r.after p e).order p events

/-- The order in which the accesses of a program reach the CFC where these events happen. -/
def hostOrder (p : HostProgram) (events : List HostEvent) : List SequencedAccess := (HostRun.start p).order p events

/-- The numbers of the sequences that operations belong to. -/
def sequenceNumbers (ops : List HostOp) : List Nat := (accessesMade 0 ops).map (·.seq.number)

/-- Code with a point, its end included, at which a handler can run. -/
def interruptible (masked : Bool) : List HostOp → Bool
  | [] => !masked
  | op :: ops => !masked || interruptible (op.maskedAfter masked) ops

/-- Code with a point inside one of its own sequences at which a handler can run; `seen` are the sequences it has entered. -/
def openInside (masked : Bool) (seen : List Nat) : List HostOp → Bool
  | [] => false
  | op :: ops =>
    (!masked && (sequenceNumbers (op :: ops)).any (fun n => seen.contains n)) ||
      openInside (op.maskedAfter masked) (sequenceNumbers [op] ++ seen) ops

/-- The handlers that can run at all: every one, where interrupts are not masked throughout the foreground. -/
def liveHandlers (p : HostProgram) : List HostCode :=
  if interruptible p.foreground.masked p.foreground.ops then p.handlers else []

/-- Sequences of a program can interleave (R176, D30): a piece that can run interleaves its own, or a handler that can run touches the CFC and
some piece that can run is open to handlers inside a sequence. -/
def canInterleave (p : HostProgram) : Bool :=
  let pieces := p.foreground :: liveHandlers p
  pieces.any (fun c => !noInterleaving (accessesMade 0 c.ops)) ||
    ((liveHandlers p).any (fun h => !(accessesMade 0 h.ops).isEmpty) && pieces.any (fun c => openInside c.masked [] c.ops))

/-- A host program placed before the machine, with the events that happen while it runs: refused, whatever happens, where an interleaving can
occur (R176, D30; log entries 8 and 14). -/
def loadHostProgram (p : HostProgram) (events : List HostEvent) (s : State) : Host.Outcome State Fault Refusal :=
  if canInterleave p then .refused .interleavedSequences else .next (s.withInputs (orderInputs (hostOrder p events)))

end Sys2Proof.Machine
end

