-- ==== Sys2Proof/Safety.lean ====
section
/-! DEFINITION. What counts as a safe run, and the invariants of 10_state.md R37. -/

namespace Sys2Proof.Machine

/-- What R37 says of one slot: an empty slot holds zeros; a configured one holds one of the two masks and a filter of a defined type. -/
def Slot.Inv (sl : Slot) : Prop :=
  (sl.valid = false → sl.filter = 0 ∧ sl.mask = 0) ∧
  (sl.valid = true → (sl.mask = 0x7FF ∨ sl.mask = 0x407) ∧ (sl.filter.extractLsb' 0 3).toNat ≤ 3)

/-- What R37 says of the slot file. -/
def SlotFile.Inv (sf : SlotFile) : Prop :=
  sf.fslot = sf.slot1.valid ∧ (sf.slot2.valid = true → sf.slot1.valid = true) ∧ sf.slot1.Inv ∧ sf.slot2.Inv

/-- The registers' invariant: R37, the frame ENC can have left (R32, R94), and at most one error bit (R153). -/
def Regs.Inv (r : Regs) : Prop :=
  r.slots.Inv ∧ (r.frame.outD[0] = 0x00 ∨ r.frame.outD[0] = 0x01) ∧ r.frame.outId.toNat ≤ 0x7FB ∧
    (r.frame.outId.extractLsb' 0 3).toNat ≤ 3 ∧ ¬(r.status.terr = true ∧ r.status.cerr = true)

/-- The machine's invariant: the registers', and the reset values while reset is asserted (R170). -/
def State.Inv (s : State) : Prop := s.regs.Inv ∧ (s.resetAsserted = true → s.regs = Regs.reset)

/-- The last command reported no error: the premise of a claim about its success (93 U1, S1, S9). -/
def State.noError (s : State) : Prop := s.regs.status.terr = false ∧ s.regs.status.cerr = false

/-- The machine goes on: a step that is no refusal and no fault. -/
def goesOn (s : State) : Prop := ∃ t, step s = .next t

/-- `k` steps, stopping at the first refusal or fault: the host's `core.run`, on the machine's own types. -/
def runSteps : Nat → State → Host.Outcome State Fault Refusal
  | 0, s => .next s
  | k + 1, s =>
    match step s with
    | .next t => runSteps k t
    | .fault r => .fault r
    | .refused r => .refused r

/-- A safe run of `k` steps: every step goes on, and no command reports an error, from the start on (93 U1, S1, S9). -/
def safeRun : Nat → State → Prop
  | 0, s => s.noError
  | k + 1, s => s.noError ∧ ∃ t, step s = .next t ∧ safeRun k t

end Sys2Proof.Machine
end

