-- ==== Sys2Proof/Certificates/Slice0/Obligations.lean ====
section
/-! DEFINITION. The statements for the provers. The helpers under `Sys2Proof.Spec` write tables and pseudocode of the spec a second time, in
the spec's own terms, so that a statement does not lean on the model's function for what it says. -/

open Sys2Proof Sys2Proof.Machine

/-- Bit `k` of the byte the host reads at offset `off`: the table of 10_state.md R22 with the fields of R24, R25 and R27 to R35. CMD and every
offset the table calls reserved, and every bit a register does not hold, is 0. -/
def Sys2Proof.Spec.windowBit (r : Regs) (off k : Nat) : Bool :=
  if off = 0x01 then
    if k = 0 then r.status.terr else if k = 1 then r.status.cerr else if k = 2 then r.slots.fslot
    else if k = 3 then r.slots.slot1.valid else if k = 4 then r.slots.slot2.valid else false
  else if off = 0x02 then
    if k = 0 then r.mres.acc else if k = 1 then r.mres.hit1 else if k = 2 then r.mres.hit2 else false
  else if off = 0x04 then r.operands.inNode.getLsbD k
  else if off = 0x05 then if k < 3 then r.operands.inType.getLsbD k else false
  else if off = 0x06 then if k = 0 then r.operands.inSw else false
  else if off = 0x08 then r.operands.inId.getLsbD k
  else if off = 0x09 then if k < 3 then r.operands.inId.getLsbD (8 + k) else false
  else if 0x10 ≤ off ∧ off ≤ 0x17 then (r.operands.inD[off - 0x10]?.getD 0).getLsbD k
  else if off = 0x18 then r.frame.outId.getLsbD k
  else if off = 0x19 then if k < 3 then r.frame.outId.getLsbD (8 + k) else false
  else if off = 0x1A then r.message.outNode.getLsbD k
  else if off = 0x1B then if k < 3 then r.message.outType.getLsbD k else false
  else if off = 0x1C then if k = 0 then r.message.outSw else false
  else if 0x20 ≤ off ∧ off ≤ 0x27 then (r.frame.outD[off - 0x20]?.getD 0).getLsbD k
  else if off = 0x28 then r.slots.slot1.filter.getLsbD k
  else if off = 0x29 then if k < 3 then r.slots.slot1.filter.getLsbD (8 + k) else false
  else if off = 0x2A then r.slots.slot1.mask.getLsbD k
  else if off = 0x2B then if k < 3 then r.slots.slot1.mask.getLsbD (8 + k) else false
  else if off = 0x2C then r.slots.slot2.filter.getLsbD k
  else if off = 0x2D then if k < 3 then r.slots.slot2.filter.getLsbD (8 + k) else false
  else if off = 0x2E then r.slots.slot2.mask.getLsbD k
  else if off = 0x2F then if k < 3 then r.slots.slot2.mask.getLsbD (8 + k) else false
  else false

/-- The operand registers after a host write of `v` at an offset other than CMD's, as the case list of 20_memory.md R52 gives them. -/
def Sys2Proof.Spec.operandsAfterWrite (o : Operands) (off : Nat) (v : Byte) : Operands :=
  if off = 0x04 then { o with inNode := v }
  else if off = 0x05 then { o with inType := v.setWidth 3 }
  else if off = 0x06 then { o with inSw := v.getLsbD 0 }
  else if off = 0x08 then { o with inId := (o.inId &&& 0x700#11) ||| v.setWidth 11 }
  else if off = 0x09 then { o with inId := (o.inId &&& 0x0FF#11) ||| (v.setWidth 11 <<< 8) }
  else if 0x10 ≤ off ∧ off ≤ 0x17 then { o with inD := o.inD.setIfInBounds (off - 0x10) v }
  else o

/-- `Vs & Match(Fs, Ms, id)` (42_filter.md R127, 10_state.md R35), bit by bit: every identifier bit whose mask bit is 1 equals the filter's. -/
def Sys2Proof.Spec.slotAccepts (sl : Slot) (ident : Ident) : Prop :=
  sl.valid = true ∧ ∀ k < 11, sl.mask.getLsbD k = true → ident.getLsbD k = sl.filter.getLsbD k

/-- The identifier of a header (00_scope.md R13): `(zext_11(n) << 3) | zext_11(t)`. -/
def Sys2Proof.Spec.headerId (n : Byte) (t : TypeBits) : Ident := (n.setWidth 11 <<< 3) ||| t.setWidth 11

/-- PlaceFilter (42_filter.md R120). -/
def Sys2Proof.Spec.slotsAfterPlace (sf : SlotFile) (f m : Ident) : SlotFile :=
  if sf.fslot = false then { sf with slot1 := { valid := true, filter := f, mask := m }, fslot := true }
  else { sf with slot2 := { valid := true, filter := f, mask := m } }

/-- The input is a host write of byte `v` to CMD, alone or with a receive query overlapping it. -/
def Sys2Proof.Spec.writesCmd (i : Input) (v : Byte) : Prop :=
  i = .host (.write 0x00 [v]) ∨ ∃ f, i = .overlap (.write 0x00 [v]) f

/-- The input is a host write of one byte to an operand register (R22: IN_NODE, IN_TYPE, IN_SW, IN_IDL, IN_IDH, IN_D0 to IN_D7). -/
def Sys2Proof.Spec.writesOperand (i : Input) : Prop :=
  ∃ off v, (off.toNat ∈ [0x04, 0x05, 0x06, 0x08, 0x09] ∨ 0x10 ≤ off.toNat ∧ off.toNat ≤ 0x17) ∧
    (i = .host (.write off [v]) ∨ ∃ f, i = .overlap (.write off [v]) f)

/-- The input is a level of the reset input. -/
def Sys2Proof.Spec.drivesReset (i : Input) : Prop := ∃ level, i = .resetPin level

/-- The access is one byte wide (20_memory.md R53). -/
def Sys2Proof.Spec.oneByte : HostAccess → Prop
  | .read _ width => width = 1
  | .write _ data => data.length = 1

/-- The frame is a standard data frame (42_filter.md R131). -/
def Sys2Proof.Spec.standardFrame (f : RxFrame) : Prop := ∃ rxId, f = .standard rxId

/-- The next act lies inside the interface of the CFC (R53, R131, R170). -/
def Sys2Proof.Spec.insideInterface (s : State) : Prop :=
  match s.inputs with
  | [] => True
  | .host a :: _ => s.resetAsserted = false ∧ Spec.oneByte a
  | .query f :: _ => Spec.standardFrame f
  | .overlap a f :: _ => s.resetAsserted = false ∧ Spec.oneByte a ∧ Spec.standardFrame f
  | .resetPin _ :: _ => True

/-- The CMD byte of a filter command: FFIRST where `first`, else FSTRICT (30_encoding.md R71). -/
def Sys2Proof.Spec.filterByte (first : Bool) : Byte := if first then 0x05 else 0x04

/-- The mask of a filter command (30_encoding.md R77). -/
def Sys2Proof.Spec.filterMask (first : Bool) : Ident := if first then 0x407 else 0x7FF

/-- The host's acts for one filter command on the header (n, t). -/
def Sys2Proof.Spec.filterActs (first : Bool) (n : Byte) (t : TypeBits) : List Input :=
  [.host (.write 0x04 [n]), .host (.write 0x05 [t.setWidth 8]), .host (.write 0x00 [Spec.filterByte first])]

/-- Some command sequence is entered again after another has begun (70_reset_and_hazards.md R176). -/
def Sys2Proof.Spec.entersAgain (order : List SequencedAccess) : Prop :=
  ∃ (i j k : Nat) (a b c : SequencedAccess), i < j ∧ j < k ∧ order[i]? = some a ∧ order[j]? = some b ∧ order[k]? = some c ∧
    a.seq = c.seq ∧ b.seq ≠ a.seq

/-- A byte of an access of `width` bytes from `addr` on lies in the window at `base` (20_memory.md R50, R56). -/
def Sys2Proof.Spec.touchesWindow (base addr width : Nat) : Prop := ∃ k < width, base ≤ addr + k ∧ addr + k ≤ base + 0x3F

/-! ### Encoding -/

/-- Every well-formed command is read back from its CMD byte (30_encoding.md R70 to R73). -/
def Obligations.DecodeOfEncodeIsTheCommand : Prop :=
  ∀ i : Instr, i.wf = true → decode (encode i) = i ∧ decodeTableWord 8 (encode i).toNat = some i

/-- 30_encoding.md R72: the decoder is total and exactly the bytes 0x00 to 0x06 are legal; no byte loses a bit in decoding. -/
def Obligations.DecoderIsTotalWithSevenLegalBytes : Prop :=
  (decode 0x00 = .nop ∧ decode 0x01 = .enc ∧ decode 0x02 = .dec ∧ decode 0x03 = .init ∧ decode 0x04 = .fstrict ∧
    decode 0x05 = .ffirst ∧ decode 0x06 = .matchIdent) ∧
  ∀ v : Byte, ((decode v).legal = true ↔ v.toNat ≤ 6) ∧ (decode v).wf = true ∧ encode (decode v) = v

/-- Words written out bit by bit from spec/opcode_table.json decode to the command of their row. -/
def Obligations.WrittenOutWordsDecodeToTheirRow : Prop :=
  decode 0b00000001#8 = .enc ∧ decode 0b00000010#8 = .dec ∧ decode 0b00000011#8 = .init ∧ decode 0b00000101#8 = .ffirst ∧
    decode 0b00000110#8 = .matchIdent ∧ decode 0b00000111#8 = .illegalOp7 ∧ decode 0b00001000#8 = .illegalZ3 0x08 ∧
    decode 0b00010111#8 = .illegalZ4 0x17 ∧ decode 0b00100001#8 = .illegalZ5 0x21 ∧ decode 0b01000000#8 = .illegalZ6 0x40 ∧
    decode 0b10000001#8 = .illegalZ7 0x81

/-- Every byte of an illegal row of the opcode table decodes to the constructor of that row. -/
def Obligations.IllegalBytesDecodeToTheirRow : Prop :=
  ∀ v : Byte,
    (v &&& 0x80 = 0x80 → decode v = .illegalZ7 v) ∧ (v &&& 0xC0 = 0x40 → decode v = .illegalZ6 v) ∧
    (v &&& 0xE0 = 0x20 → decode v = .illegalZ5 v) ∧ (v &&& 0xF0 = 0x10 → decode v = .illegalZ4 v) ∧
    (v &&& 0xF8 = 0x08 → decode v = .illegalZ3 v) ∧ (v = 0x07 → decode v = .illegalOp7)

/-! ### The step -/

/-- A step whose next act is a host write of `v` to CMD is the decoded command, at the state without that act (10_state.md R23; 30_encoding.md
R72). The list of acts is the model's (log entry 1). -/
def Obligations.StepRunsTheDecodedCommand : Prop :=
  ∀ (s : State) (v : Byte) (rest : List Input), s.resetAsserted = false → s.inputs = .host (.write 0x00 [v]) :: rest →
    step s = exec (decode v) { s with inputs := rest }

/-- The next step after placing a table word runs exactly that word's command, whatever the state (log entries 1 and 10). -/
def Obligations.PlacedWordRunsNext : Prop :=
  ∀ (s : State) (w : Nat) (i : Instr), decodeTableWord 8 w = some i →
    step (s.withFetchWord 8 w) = exec i { s with resetAsserted := false }

/-- With no act to come the machine holds its state (60_exceptions.md R163; the idle step is the model's choice, log entry 1). -/
def Obligations.IdleMachineHoldsItsState : Prop := ∀ s : State, s.inputs = [] → step s = .next s

/-- A step goes on exactly where the next act lies inside the interface of the CFC (R53, R131, R170), and it never faults (60_exceptions.md
R152). Two clauses are the model's choice: with no act to come the step goes on (log entry 1, DEDUCED from R163), and an overlapping query is one
act with its access (log entry 4, over 20_memory.md R59). -/
def Obligations.StepStopsOnlyOutsideTheInterface : Prop :=
  ∀ s : State, (goesOn s ↔ Spec.insideInterface s) ∧ ∀ r, step s ≠ .fault r

/-- An act outside the interface is refused by the name that says why (R53, R131, R170), an access that a query overlaps included. Which name
comes first is the model's choice (log entry 6): reset before the width, the access before the frame. -/
def Obligations.RefusalsNameTheirCause : Prop :=
  ∀ (s : State) (rest : List Input) (a : HostAccess) (f : RxFrame),
    (s.resetAsserted = true →
      step { s with inputs := .host a :: rest } = .refused .accessDuringReset ∧
      step { s with inputs := .overlap a f :: rest } = .refused .accessDuringReset) ∧
    (s.resetAsserted = false → ¬ Spec.oneByte a →
      step { s with inputs := .host a :: rest } = .refused .accessWidth ∧
      step { s with inputs := .overlap a f :: rest } = .refused .accessWidth) ∧
    (¬ Spec.standardFrame f →
      step { s with inputs := .query f :: rest } = .refused .nonStandardFrame ∧
      (s.resetAsserted = false → Spec.oneByte a →
        step { s with inputs := .overlap a f :: rest } = .refused .nonStandardFrame))

/-! ### The register window -/

/-- 20_memory.md R51: a read returns the byte of the table, 0x00 for CMD and the reserved offsets, and changes no register. -/
def Obligations.HostReadReturnsTheWindowByte : Prop :=
  ∀ (s : State) (off : Offset) (rest : List Input), s.resetAsserted = false →
    ∃ b : Byte, step { s with inputs := .host (.read off 1) :: rest } = .next { s with inputs := rest, hostData := some b } ∧
      ∀ k < 8, b.getLsbD k = Spec.windowBit s.regs off.toNat k

/-- 20_memory.md R52: a write performs the command, sets the one operand register of the offset, or has no effect; an operand write starts no
command, changes no status flag and nothing on any port. -/
def Obligations.HostWriteActsByTheCaseList : Prop :=
  ∀ (s : State) (off : Offset) (v : Byte) (rest : List Input), s.resetAsserted = false →
    step { s with inputs := .host (.write off [v]) :: rest } =
      if off.toNat = 0x00 then exec (decode v) { s with inputs := rest }
      else .next { s with inputs := rest, regs := { s.regs with operands := Spec.operandsAfterWrite s.regs.operands off.toNat v } }

/-- Each operand write leaves every other byte of the window as it was, and the written register reads back the bits it holds (R22, R27 to
R30, R52). -/
def Obligations.OperandWriteKeepsEveryOtherByte : Prop :=
  ∀ (s : State) (off : Offset) (v : Byte) (rest : List Input), s.resetAsserted = false → off.toNat ≠ 0x00 →
    ∃ t, step { s with inputs := .host (.write off [v]) :: rest } = .next t ∧
      (∀ other : Offset, other ≠ off → readByte t.regs other = readByte s.regs other) ∧
      (off.toNat ∈ [0x04, 0x08, 0x10, 0x11, 0x12, 0x13, 0x14, 0x15, 0x16, 0x17] → readByte t.regs off = v) ∧
      (off.toNat ∈ [0x05, 0x09] → readByte t.regs off = v &&& 0x07) ∧
      (off.toNat = 0x06 → readByte t.regs off = v &&& 0x01) ∧
      txFrame t.regs = txFrame s.regs ∧ flt1 t.regs = flt1 s.regs ∧ flt2 t.regs = flt2 s.regs ∧
      ∀ ident, rxPort t.regs ident = rxPort s.regs ident

/-- The 11-bit operand is little-endian over its two byte registers, in either order of writing (20_memory.md R54; 10_state.md R29). -/
def Obligations.IdentifierBytesAreLittleEndian : Prop :=
  ∀ (s : State) (lo hi : Byte), s.resetAsserted = false →
    (∃ t, runSteps 2 { s with inputs := [.host (.write 0x08 [lo]), .host (.write 0x09 [hi])] } = .next t ∧
      t.regs.operands.inId.toNat = lo.toNat + 256 * (hi.toNat % 8)) ∧
    (∃ t, runSteps 2 { s with inputs := [.host (.write 0x09 [hi]), .host (.write 0x08 [lo])] } = .next t ∧
      t.regs.operands.inId.toNat = lo.toNat + 256 * (hi.toNat % 8))

/-- An operand write repeated leaves the state that one leaves; a CMD write is not idempotent: where no slot is configured one FSTRICT configures
slot 1 alone, and two configure both slots (20_memory.md R55). -/
def Obligations.OperandWritesAreIdempotentCommandsAreNot : Prop :=
  (∀ (s : State) (off : Offset) (v : Byte), s.resetAsserted = false → off.toNat ≠ 0x00 →
    runSteps 2 { s with inputs := [.host (.write off [v]), .host (.write off [v])] } =
      runSteps 1 { s with inputs := [.host (.write off [v])] }) ∧
  (∀ s : State, s.resetAsserted = false → s.regs.operands.inType.toNat ≤ 3 → s.regs.slots.fslot = false →
    ∃ u t, runSteps 1 { s with inputs := [.host (.write 0x00 [0x04])] } = .next u ∧
      runSteps 2 { s with inputs := [.host (.write 0x00 [0x04]), .host (.write 0x00 [0x04])] } = .next t ∧
      u.regs.slots.slot1.valid = true ∧ u.regs.slots.slot2 = s.regs.slots.slot2 ∧
      t.regs.slots.slot1.valid = true ∧ t.regs.slots.slot2.valid = true ∧ t.regs.slots.slot1 = t.regs.slots.slot2 ∧
      (s.regs.slots.slot2.valid = false → u.regs.slots.slot2.valid = false ∧ u.regs ≠ t.regs))

/-- The window stands at CFC_BASE, for every base: each offset is selected by its one address, no address outside selects any, a one-byte access
by address is the access at its offset, and one outside the window is no act of the CFC (00_scope.md R8, R12; 20_memory.md R50, R56; log entry
2). -/
def Obligations.WindowStandsAtTheBase : Prop :=
  ∀ base : Nat, (∀ off : Offset, windowOffset base (base + off.toNat) = some off) ∧
    (∀ addr, addr < base ∨ base + 0x3F < addr → windowOffset base addr = none) ∧
    (∀ addr off, windowOffset base addr = some off → addr = base + off.toNat) ∧
    (∀ (off : Offset) (v : Byte) (p : List BusAccess),
      busInputs base (.memRead (base + off.toNat) 1 :: p) = .host (.read off 1) :: busInputs base p ∧
      busInputs base (.memWrite (base + off.toNat) [v] :: p) = .host (.write off [v]) :: busInputs base p) ∧
    ∀ (addr width : Nat) (data : List Byte) (p : List BusAccess),
      (0 < width → ¬ Spec.touchesWindow base addr width → busInputs base (.memRead addr width :: p) = busInputs base p) ∧
      (0 < data.length → ¬ Spec.touchesWindow base addr data.length → busInputs base (.memWrite addr data :: p) = busInputs base p)

/-! ### Reset -/

/-- 10_state.md R39: the value of every field after reset. -/
def Obligations.ResetStateHoldsTheListedValues : Prop :=
  let r := State.reset.regs
  r.operands.inNode = 0x00 ∧ r.operands.inType = 0 ∧ r.operands.inSw = true ∧ r.operands.inId = 0x000 ∧
    r.operands.inD.toList = List.replicate 8 0x00 ∧ r.frame.outId = 0x000 ∧ r.frame.outD.toList = List.replicate 8 0x00 ∧
    r.message.outNode = 0x00 ∧ r.message.outType = 0 ∧ r.message.outSw = false ∧
    r.mres.acc = false ∧ r.mres.hit1 = false ∧ r.mres.hit2 = false ∧ r.status.terr = false ∧ r.status.cerr = false ∧
    r.slots.fslot = false ∧ r.slots.slot1.valid = false ∧ r.slots.slot2.valid = false ∧
    r.slots.slot1.filter = 0x000 ∧ r.slots.slot1.mask = 0x000 ∧ r.slots.slot2.filter = 0x000 ∧ r.slots.slot2.mask = 0x000

/-- Asserting the reset input, and releasing it, puts every register at its reset value; nothing else is performed (70_reset_and_hazards.md
R170; the list of acts and the level field are the model's, log entries 1 and 5). -/
def Obligations.ResetInputRestoresEveryRegister : Prop :=
  ∀ (s : State) (level : Bool) (rest : List Input), level = true ∨ s.resetAsserted = true →
    step { s with inputs := .resetPin level :: rest } =
      .next { s with inputs := rest, resetAsserted := level, regs := State.reset.regs }

/-- The start-up order from any state: a reset pulse and INIT leave the reset registers, so INIT right after reset changes nothing
(70_reset_and_hazards.md R173). -/
def Obligations.StartUpLeavesTheResetRegisters : Prop :=
  ∀ s : State, runSteps 3 { s with inputs := startUp [] } =
    .next { s with inputs := [], resetAsserted := false, regs := State.reset.regs }

/-! ### Codec -/

/-- 40_codec.md R91: ENC by its pseudocode, every other field unchanged. -/
def Obligations.EncPacksTheMessage : Prop :=
  decode 0b00000001#8 = .enc ∧
  ∀ s : State, exec .enc s =
    let o := s.regs.operands
    if 4 ≤ o.inType.toNat then .next { s with regs := { s.regs with status := { terr := true, cerr := false } } }
    else .next { s with regs := { s.regs with
      frame := { outId := (o.inNode.setWidth 11 <<< 3) ||| o.inType.setWidth 11
                 outD := #v[if o.inSw then 0x01 else 0x00, o.inD[1], o.inD[2], o.inD[3], o.inD[4], o.inD[5], o.inD[6], o.inD[7]] }
      status := { terr := false, cerr := false } } }

/-- 40_codec.md R92: payload byte 0 of an accepted ENC is 0x01 or 0x00 as IN_SW is 1 or 0. -/
def Obligations.EncPayloadByteIsStrict : Prop :=
  ∀ s : State, s.regs.operands.inType.toNat ≤ 3 →
    ∃ t, exec .enc s = .next t ∧ t.regs.frame.outD[0] = if s.regs.operands.inSw then 0x01 else 0x00

/-- 40_codec.md R94: every identifier ENC writes lies in 0 to 2043 with bits 2:0 at most 3. -/
def Obligations.EncIdentifiersAreInRange : Prop :=
  ∀ s : State, s.regs.operands.inType.toNat ≤ 3 →
    ∃ t, exec .enc s = .next t ∧ t.regs.frame.outId.toNat ≤ 2043 ∧ t.regs.frame.outId.toNat % 8 ≤ 3

/-- The identifier of a header bit by bit, by the table of 30_encoding.md R74: no bit is lost and `|` and `+` agree; NodeOf and TypeOf undo
it (R75). -/
def Obligations.HeaderBitsAreDisjoint : Prop :=
  ∀ (n : Byte) (t : TypeBits),
    (∀ k < 11, (encodeId n t).getLsbD k = if k < 3 then t.getLsbD k else n.getLsbD (k - 3)) ∧
    (encodeId n t).toNat = 8 * n.toNat + t.toNat ∧ nodeOf (encodeId n t) = n ∧ typeOf (encodeId n t) = t

/-- 40_codec.md R95: DEC by its pseudocode, every other field unchanged. -/
def Obligations.DecSplitsTheIdentifier : Prop :=
  decode 0b00000010#8 = .dec ∧
  ∀ s : State, exec .dec s =
    let o := s.regs.operands
    .next { s with regs := { s.regs with
      message := { outNode := (o.inId >>> 3).setWidth 8, outType := (o.inId &&& 0b111).setWidth 3
                   outSw := if o.inD[0] = 0x00 then false else true }
      status := { terr := if 4 ≤ o.inId.toNat % 8 then true else false, cerr := false } } }

/-- 40_codec.md R96 and R97: OUT_SW is 1 exactly on a non-zero byte, and a reserved type gives TERR = 1 with the raw type in OUT_TYPE, DEC going
on. -/
def Obligations.DecReportsReservedTypesAndIsPermissive : Prop :=
  ∀ s : State, ∃ t, exec .dec s = .next t ∧ (t.regs.message.outSw = true ↔ s.regs.operands.inD[0] ≠ 0x00) ∧
    (s.regs.operands.inId.toNat % 8 ∈ [4, 5, 6, 7] →
      t.regs.status.terr = true ∧ t.regs.message.outType.toNat = s.regs.operands.inId.toNat % 8)

/-- 40_codec.md R93, through the window: ENC, the results copied by the host, DEC; and DEC, the results copied, ENC. -/
def Obligations.EncodeDecodeRoundTrip : Prop :=
  (∀ (s : State) (n b1 b2 b3 b4 b5 b6 b7 : Byte) (ty : TypeBits) (sw : Bool), s.resetAsserted = false → ty.toNat ≤ 3 →
    ∃ t, runSteps 11 { s with inputs :=
        [.host (.write 0x11 [b1]), .host (.write 0x12 [b2]), .host (.write 0x13 [b3]), .host (.write 0x14 [b4]),
          .host (.write 0x15 [b5]), .host (.write 0x16 [b6]), .host (.write 0x17 [b7]), .host (.write 0x04 [n]),
          .host (.write 0x05 [ty.setWidth 8]), .host (.write 0x06 [if sw then 0x01 else 0x00]), .host (.write 0x00 [0x01])] } =
        .next t ∧
      ∃ u, runSteps 4 { t with inputs :=
          [.host (.write 0x08 [readByte t.regs 0x18]), .host (.write 0x09 [readByte t.regs 0x19]),
            .host (.write 0x10 [readByte t.regs 0x20]), .host (.write 0x00 [0x02])] } = .next u ∧
        u.regs.message.outNode = n ∧ u.regs.message.outType = ty ∧ u.regs.message.outSw = sw ∧ u.regs.status.terr = false) ∧
  (∀ (s : State) (ident : Ident) (b0 : Byte), s.resetAsserted = false → ident.getLsbD 2 = false → b0 = 0x00 ∨ b0 = 0x01 →
    ∃ t, runSteps 4 { s with inputs :=
        [.host (.write 0x08 [ident.setWidth 8]), .host (.write 0x09 [(ident >>> 8).setWidth 8]), .host (.write 0x10 [b0]),
          .host (.write 0x00 [0x02])] } = .next t ∧
      ∃ u, runSteps 4 { t with inputs :=
          [.host (.write 0x04 [readByte t.regs 0x1A]), .host (.write 0x05 [readByte t.regs 0x1B]),
            .host (.write 0x06 [readByte t.regs 0x1C]), .host (.write 0x00 [0x01])] } = .next u ∧
        u.regs.frame.outId = ident ∧ u.regs.frame.outD[0] = b0)

/-- ENC and DEC read only the operands their rules name: the results do not depend on any other register (40_codec.md R90, R91, R95). -/
def Obligations.CodecResultsDependOnlyOnTheirOperands : Prop :=
  ∀ s s' t t' : State,
    (exec .enc s = .next t → exec .enc s' = .next t' → s.regs.operands.inNode = s'.regs.operands.inNode →
      s.regs.operands.inType = s'.regs.operands.inType → s.regs.operands.inSw = s'.regs.operands.inSw →
      (∀ (k : Nat) (h : k < 8), 1 ≤ k → s.regs.operands.inD[k] = s'.regs.operands.inD[k]) → s.regs.frame = s'.regs.frame →
      t.regs.frame = t'.regs.frame ∧ t.regs.status = t'.regs.status) ∧
    (exec .dec s = .next t → exec .dec s' = .next t' → s.regs.operands.inId = s'.regs.operands.inId →
      s.regs.operands.inD[0] = s'.regs.operands.inD[0] → t.regs.message = t'.regs.message ∧ t.regs.status = t'.regs.status)

/-- The frame of ENC and DEC over the window: ENC changes no byte but STATUS, OUT_IDL, OUT_IDH and OUT_D0 to OUT_D7, and DEC none but STATUS,
OUT_NODE, OUT_TYPE and OUT_SW; of STATUS only TERR and CERR change (40_codec.md R90). -/
def Obligations.CodecCommandsKeepEveryOtherByte : Prop :=
  ∀ s : State,
    (∃ t, exec .enc s = .next t ∧
      (∀ off : Offset, off.toNat ≠ 0x01 → off.toNat ≠ 0x18 → off.toNat ≠ 0x19 → ¬(0x20 ≤ off.toNat ∧ off.toNat ≤ 0x27) →
        readByte t.regs off = readByte s.regs off) ∧
      readByte t.regs 0x01 &&& 0xFC = readByte s.regs 0x01 &&& 0xFC) ∧
    (∃ t, exec .dec s = .next t ∧
      (∀ off : Offset, off.toNat ≠ 0x01 → ¬(0x1A ≤ off.toNat ∧ off.toNat ≤ 0x1C) → readByte t.regs off = readByte s.regs off) ∧
      readByte t.regs 0x01 &&& 0xFC = readByte s.regs 0x01 &&& 0xFC)

/-- The named message types and the reserved patterns (00_scope.md R16): the reserved ones are those with bit 2 set. -/
def Obligations.MessageTypesAreZeroToThree : Prop :=
  messageTypeBits .normal = 0b000 ∧ messageTypeBits .heartbeat = 0b001 ∧ messageTypeBits .config = 0b010 ∧
    messageTypeBits .complex = 0b011 ∧ (∀ m, messageTypeOf (messageTypeBits m) = some m) ∧
    ∀ t : TypeBits, (messageTypeOf t = none ↔ 4 ≤ t.toNat) ∧ (isReservedType t = true ↔ 4 ≤ t.toNat)

/-! ### Control and illegal commands -/

/-- 41_control.md R110: NOP clears TERR and CERR and changes nothing else. -/
def Obligations.NopClearsTheErrorBits : Prop :=
  decode 0b00000000#8 = .nop ∧
  ∀ s : State, exec .nop s = .next { s with regs := { s.regs with status := { terr := false, cerr := false } } }

/-- 41_control.md R111: INIT by its pseudocode, every other field unchanged; it is idempotent, and nothing is accepted for as long
as the slot file stays as it leaves it. -/
def Obligations.InitClearsTheSlotFile : Prop :=
  decode 0b00000011#8 = .init ∧
  ∀ s : State, ∃ t, exec .init s = .next t ∧
    t = { s with regs := { s.regs with
      slots := { fslot := false, slot1 := { valid := false, filter := 0x000, mask := 0x000 }
                 slot2 := { valid := false, filter := 0x000, mask := 0x000 } }
      mres := { acc := false, hit1 := false, hit2 := false }
      status := { terr := false, cerr := false } } } ∧
    exec .init t = .next t ∧ ∀ r : Regs, r.slots = t.regs.slots → ∀ ident, (rxPort r ident).accept = false

/-- 41_control.md R112: after INIT the slot file, MRES, TERR and CERR hold their reset values; operands and results are not reset. -/
def Obligations.InitAgreesWithResetOnTheSlotFile : Prop :=
  ∀ s : State, ∃ t, exec .init s = .next t ∧ t.regs.slots = State.reset.regs.slots ∧ t.regs.mres = State.reset.regs.mres ∧
    t.regs.status = State.reset.regs.status ∧ t.regs.operands = s.regs.operands ∧ t.regs.frame = s.regs.frame ∧
    t.regs.message = s.regs.message

/-- 30_encoding.md R73: an illegal byte sets CERR, clears TERR and changes nothing else, for every illegal row with every byte of that row, and
for every byte above 6. -/
def Obligations.IllegalCommandsSetOnlyCerr : Prop :=
  ∀ (s : State) (v : Byte),
    let after : Host.Outcome State Fault Refusal := .next { s with regs := { s.regs with status := { terr := false, cerr := true } } }
    exec .illegalOp7 s = after ∧ ((Instr.illegalZ7 v).wf = true → exec (.illegalZ7 v) s = after) ∧
      ((Instr.illegalZ6 v).wf = true → exec (.illegalZ6 v) s = after) ∧ ((Instr.illegalZ5 v).wf = true → exec (.illegalZ5 v) s = after) ∧
      ((Instr.illegalZ4 v).wf = true → exec (.illegalZ4 v) s = after) ∧ ((Instr.illegalZ3 v).wf = true → exec (.illegalZ3 v) s = after) ∧
      (6 < v.toNat → exec (decode v) s = after)

/-- 60_exceptions.md R150 and R153: the error bits after any CMD byte, never both 1; a host write to another offset changes neither. -/
def Obligations.EveryCommandRewritesTheErrorBits : Prop :=
  (∀ (s : State) (v : Byte), ∃ t, exec (decode v) s = .next t ∧ (t.regs.status.cerr = true ↔ 6 < v.toNat) ∧
    t.regs.status.terr = (if v.toNat ∈ [1, 4, 5] then s.regs.operands.inType.getLsbD 2
      else if v.toNat = 2 then s.regs.operands.inId.getLsbD 2 else false) ∧
    ¬(t.regs.status.terr = true ∧ t.regs.status.cerr = true)) ∧
  (∀ (s : State) (off : Offset) (v : Byte) (rest : List Input), s.resetAsserted = false → off.toNat ≠ 0x00 →
    ∃ t, step { s with inputs := .host (.write off [v]) :: rest } = .next t ∧ t.regs.status = s.regs.status)

/-! ### Acceptance filters -/

/-- 42_filter.md R120 and R121: FSTRICT by its pseudocode, every other field unchanged. -/
def Obligations.FstrictPlacesAStrictFilter : Prop :=
  decode 0b00000100#8 = .fstrict ∧
  ∀ s : State, exec .fstrict s =
    let o := s.regs.operands
    if 4 ≤ o.inType.toNat then .next { s with regs := { s.regs with status := { terr := true, cerr := false } } }
    else .next { s with regs := { s.regs with
      slots := Spec.slotsAfterPlace s.regs.slots (Spec.headerId o.inNode o.inType) 0x7FF
      status := { terr := false, cerr := false } } }

/-- 42_filter.md R120 and R124: FFIRST by its pseudocode, every other field unchanged. -/
def Obligations.FfirstPlacesAFirstBitFilter : Prop :=
  decode 0b00000101#8 = .ffirst ∧
  ∀ s : State, exec .ffirst s =
    let o := s.regs.operands
    if 4 ≤ o.inType.toNat then .next { s with regs := { s.regs with status := { terr := true, cerr := false } } }
    else .next { s with regs := { s.regs with
      slots := Spec.slotsAfterPlace s.regs.slots (Spec.headerId o.inNode o.inType) 0x407
      status := { terr := false, cerr := false } } }

/-- 42_filter.md R123: a filter command changes no operand, no OUT register, not MRES and not the slot that is not selected, byte by byte of
the window; from the third command on slot 1 stays. -/
def Obligations.FilterCommandsKeepEverythingElse : Prop :=
  ∀ (s : State) (first : Bool), ∃ t, exec (decode (Spec.filterByte first)) s = .next t ∧
    (∀ off : Offset, off.toNat ≠ 0x01 → ¬(0x28 ≤ off.toNat ∧ off.toNat ≤ 0x2F) → readByte t.regs off = readByte s.regs off) ∧
    (∀ off : Offset, s.regs.slots.fslot = true → 0x28 ≤ off.toNat → off.toNat ≤ 0x2B → readByte t.regs off = readByte s.regs off) ∧
    (∀ off : Offset, s.regs.slots.fslot = false → 0x2C ≤ off.toNat → off.toNat ≤ 0x2F → readByte t.regs off = readByte s.regs off) ∧
    (s.regs.slots.fslot = true → t.regs.slots.slot1 = s.regs.slots.slot1 ∧ t.regs.slots.fslot = true) ∧
    (s.regs.slots.fslot = false → t.regs.slots.slot2 = s.regs.slots.slot2) ∧
    t.regs.operands = s.regs.operands ∧ t.regs.frame = s.regs.frame ∧ t.regs.message = s.regs.message ∧
    t.regs.mres = s.regs.mres ∧ t.inputs = s.inputs ∧ t.resetAsserted = s.resetAsserted ∧ t.hostData = s.hostData ∧
    t.rxAnswer = s.rxAnswer ∧ t.races = s.races

/-- 42_filter.md R127 and R128: MATCH writes the hits of IN_ID, bit by bit of filter and mask, clears the error bits and changes nothing
else. -/
def Obligations.MatchAppliesTheSlotFile : Prop :=
  decode 0b00000110#8 = .matchIdent ∧
  ∀ s : State, ∃ m : MatchResult,
    exec .matchIdent s = .next { s with regs := { s.regs with mres := m, status := { terr := false, cerr := false } } } ∧
    (m.hit1 = true ↔ Spec.slotAccepts s.regs.slots.slot1 s.regs.operands.inId) ∧
    (m.hit2 = true ↔ Spec.slotAccepts s.regs.slots.slot2 s.regs.operands.inId) ∧
    m.acc = (m.hit1 || m.hit2)

/-- Under the invariant of 10_state.md R37, MATCH of an identifier with a reserved type hits no slot (42_filter.md R128). -/
def Obligations.ReservedIdentifiersMatchNothing : Prop :=
  ∀ s : State, s.regs.Inv → s.regs.operands.inId.getLsbD 2 = true →
    ∃ t, exec .matchIdent s = .next t ∧ t.regs.mres = { acc := false, hit1 := false, hit2 := false }

/-- 42_filter.md R122: after one FSTRICT on the slot file of reset or INIT, exactly the header's identifier is accepted, and every single-bit
flip of it is rejected. -/
def Obligations.StrictFilterAcceptsOneIdentifier : Prop :=
  ∀ s : State, s.regs.slots = State.reset.regs.slots → s.regs.operands.inType.toNat ≤ 3 →
    ∃ t, exec .fstrict s = .next t ∧
      let h := Spec.headerId s.regs.operands.inNode s.regs.operands.inType
      (∀ ident, (rxPort t.regs ident).accept = true ↔ ident = h) ∧
      ∀ k < 11, (rxPort t.regs (h ^^^ (1#11 <<< k))).accept = false

/-- 42_filter.md R125: after one FFIRST on the slot file of reset or INIT, a header is accepted exactly where nodeID bit 7 and the type agree. -/
def Obligations.FirstBitFilterComparesTopBitAndType : Prop :=
  ∀ s : State, s.regs.slots = State.reset.regs.slots → s.regs.operands.inType.toNat ≤ 3 →
    ∃ t, exec .ffirst s = .next t ∧
      ∀ (n' : Byte) (t' : TypeBits), (rxPort t.regs (Spec.headerId n' t')).accept = true ↔
        n'.getLsbD 7 = s.regs.operands.inNode.getLsbD 7 ∧ t' = s.regs.operands.inType

/-- One first-bit slot accepts 128 identifiers (42_filter.md R124, corner case). -/
def Obligations.FirstBitFilterAcceptsHundredTwentyEight : Prop :=
  ∀ s : State, s.regs.slots = State.reset.regs.slots → s.regs.operands.inType.toNat ≤ 3 →
    ∃ t, exec .ffirst s = .next t ∧
      (List.range 2048).countP (fun x => (rxPort t.regs (BitVec.ofNat 11 x)).accept) = 128

/-- 42_filter.md R126: FFIRST stores the whole EncodeId, and bits 9:3 of a filter under the first-bit mask take no part in
acceptance, whatever the other slot holds. -/
def Obligations.UncomparedFilterBitsTakeNoPart : Prop :=
  (∀ s : State, s.regs.operands.inType.toNat ≤ 3 → ∃ t, exec .ffirst s = .next t ∧
    (if s.regs.slots.fslot then t.regs.slots.slot2 else t.regs.slots.slot1).filter =
      Spec.headerId s.regs.operands.inNode s.regs.operands.inType) ∧
  ∀ (r : Regs) (sl sl' : Slot) (ident : Ident), sl.mask = 0x407 → sl'.mask = 0x407 → sl.valid = sl'.valid →
    (∀ k < 11, k < 3 ∨ k = 10 → sl.filter.getLsbD k = sl'.filter.getLsbD k) →
    rxPort { r with slots := { r.slots with slot1 := sl } } ident = rxPort { r with slots := { r.slots with slot1 := sl' } } ident ∧
    rxPort { r with slots := { r.slots with slot2 := sl } } ident = rxPort { r with slots := { r.slots with slot2 := sl' } } ident

/-- 42_filter.md R129: three filter commands in any mix of modes on the slot file of reset or INIT leave slot 1 = A, slot 2 = C, and accept the
union of their accept sets. -/
def Obligations.ThreeFilterCommandsLeaveFirstAndThird : Prop :=
  ∀ (s : State) (fa fb fc : Bool) (na nb nc : Byte) (ta tb tc : TypeBits), s.resetAsserted = false →
    s.regs.slots = State.reset.regs.slots → ta.toNat ≤ 3 → tb.toNat ≤ 3 → tc.toNat ≤ 3 →
    ∃ t, runSteps 9 { s with inputs := Spec.filterActs fa na ta ++ Spec.filterActs fb nb tb ++ Spec.filterActs fc nc tc } = .next t ∧
      let a : Slot := { valid := true, filter := Spec.headerId na ta, mask := Spec.filterMask fa }
      let c : Slot := { valid := true, filter := Spec.headerId nc tc, mask := Spec.filterMask fc }
      t.regs.slots = { fslot := true, slot1 := a, slot2 := c } ∧
      ∀ ident, (rxPort t.regs ident).accept = true ↔ Spec.slotAccepts a ident ∨ Spec.slotAccepts c ident

/-! ### Ports -/

/-- The receive port answers a standard frame from the slot file, bit by bit, with `rx_buf` = 0; the query changes no register (42_filter.md
R131, R132; the field that holds the answer is the model's, log entry 3). -/
def Obligations.ReceivePortAnswersFromTheSlotFile : Prop :=
  ∀ (s : State) (rxId : Ident) (rest : List Input), ∃ a : RxAnswer,
    step { s with inputs := .query (.standard rxId) :: rest } = .next { s with inputs := rest, rxAnswer := some a } ∧
    (a.hit1 = true ↔ Spec.slotAccepts s.regs.slots.slot1 rxId) ∧ (a.hit2 = true ↔ Spec.slotAccepts s.regs.slots.slot2 rxId) ∧
    a.accept = (a.hit1 || a.hit2) ∧ a.buf = 0

/-- With the slot file of reset or INIT no identifier is accepted (70_reset_and_hazards.md R171; 42_filter.md R127). -/
def Obligations.EmptySlotsAcceptNothing : Prop :=
  ∀ r : Regs, r.slots = State.reset.regs.slots → ∀ ident,
    (rxPort r ident).accept = false ∧ (rxPort r ident).hit1 = false ∧ (rxPort r ident).hit2 = false

/-- A query that overlaps a host access sees the slot file before the access or after it, never a mixture, and the access has the effect it has
alone (20_memory.md R59; 70_reset_and_hazards.md R177). It holds for every value of the free choice (log entry 4). -/
def Obligations.OverlappingQuerySeesBeforeOrAfter : Prop :=
  ∀ (s u : State) (a : HostAccess) (rxId : Ident) (rest : List Input),
    step { s with inputs := .host a :: rest } = .next u →
    ∃ t, step { s with inputs := .overlap a (.standard rxId) :: rest } = .next t ∧ t.regs = u.regs ∧ t.hostData = u.hostData ∧
      t.inputs = rest ∧ t.resetAsserted = s.resetAsserted ∧
      (t.rxAnswer = some (rxPort s.regs rxId) ∨ t.rxAnswer = some (rxPort u.regs rxId))

/-- The output ports show the registers, and R127 applied to `flt` is the acceptance the receive port answers (10_state.md R38; 42_filter.md
R133). -/
def Obligations.OutputPortsShowTheRegisters : Prop :=
  ∀ (r : Regs) (ident : Ident),
    (txFrame r).outId = r.frame.outId ∧ (txFrame r).outD = r.frame.outD ∧
    flt1 r = { valid := r.slots.slot1.valid, filter := r.slots.slot1.filter, mask := r.slots.slot1.mask } ∧
    flt2 r = { valid := r.slots.slot2.valid, filter := r.slots.slot2.filter, mask := r.slots.slot2.mask } ∧
    ((rxPort r ident).accept = true ↔ Spec.slotAccepts (flt1 r) ident ∨ Spec.slotAccepts (flt2 r) ident)

/-! ### The whole machine -/

/-- Every step keeps the invariant: R37 of 10_state.md, the frame of R32 and R94, at most one error bit (R153), reset values under reset
(R170). -/
def Obligations.EveryStepKeepsTheInvariant : Prop :=
  ∀ s t : State, s.Inv → step s = .next t → t.Inv

/-- The invariant holds right after reset. -/
def Obligations.ResetStateMeetsTheInvariant : Prop := State.reset.Inv

/-- Who writes what, over every step: operand registers only host writes to them, OUT_ID and OUT_D only ENC, OUT_NODE, OUT_TYPE and OUT_SW only
DEC, MRES only MATCH and INIT, the slot file only FSTRICT, FFIRST and INIT, TERR and CERR only a CMD write; and all of them the reset input
(10_state.md R20, R24, R25, R31 to R35; 70_reset_and_hazards.md R175). -/
def Obligations.EachRegisterGroupHasItsOnlyWriters : Prop :=
  ∀ (s t : State) (i : Input) (rest : List Input), s.inputs = i :: rest → step s = .next t →
    (t.regs.operands ≠ s.regs.operands → Spec.writesOperand i ∨ Spec.drivesReset i) ∧
    (t.regs.frame ≠ s.regs.frame → Spec.writesCmd i 0x01 ∨ Spec.drivesReset i) ∧
    (t.regs.message ≠ s.regs.message → Spec.writesCmd i 0x02 ∨ Spec.drivesReset i) ∧
    (t.regs.mres ≠ s.regs.mres → Spec.writesCmd i 0x06 ∨ Spec.writesCmd i 0x03 ∨ Spec.drivesReset i) ∧
    (t.regs.slots ≠ s.regs.slots →
      Spec.writesCmd i 0x04 ∨ Spec.writesCmd i 0x05 ∨ Spec.writesCmd i 0x03 ∨ Spec.drivesReset i) ∧
    (t.regs.status ≠ s.regs.status → (∃ v, Spec.writesCmd i v) ∨ Spec.drivesReset i)

/-! ### Host programs -/

/-- A program is refused exactly where a command sequence is entered again after another has begun; otherwise its accesses are the acts to come
(70_reset_and_hazards.md R176; log entry 8). -/
def Obligations.InterleavedProgramsAreRefused : Prop :=
  ∀ (p : List SequencedAccess) (s : State),
    (Spec.entersAgain p → loadProgram p s = .refused .interleavedSequences) ∧
    (¬ Spec.entersAgain p → loadProgram p s = .next { s with inputs := p.map (fun a => .host a.access) })

/-- The pseudo-operations expand to the lines of 30_encoding.md R79, each line the access R78 encodes. -/
def Obligations.PseudoOperationsExpandToTheirLines : Prop :=
  ∀ (n t sw b0 d1 d2 d3 d4 d5 d6 d7 : Byte) (ident : Ident),
    pseudoEncode n t sw = [.write 0x04 [n], .write 0x05 [t], .write 0x06 [sw], .write 0x00 [0x01]] ∧
    pseudoEncodePayload d1 d2 d3 d4 d5 d6 d7 = [.write 0x11 [d1], .write 0x12 [d2], .write 0x13 [d3], .write 0x14 [d4],
      .write 0x15 [d5], .write 0x16 [d6], .write 0x17 [d7]] ∧
    pseudoDecode ident b0 = [.write 0x08 [ident.setWidth 8], .write 0x09 [(ident >>> 8).setWidth 8], .write 0x10 [b0],
      .write 0x00 [0x02]] ∧
    pseudoInitialize = [.write 0x00 [0x03]] ∧
    pseudoStrictFilter n t = [.write 0x04 [n], .write 0x05 [t], .write 0x00 [0x04]] ∧
    pseudoFirstBitFilter n t = [.write 0x04 [n], .write 0x05 [t], .write 0x00 [0x05]] ∧
    pseudoMatch ident = [.write 0x08 [ident.setWidth 8], .write 0x09 [(ident >>> 8).setWidth 8], .write 0x00 [0x06]] ∧
    pseudoSend n t sw = [.write 0x04 [n], .write 0x05 [t], .write 0x06 [sw], .write 0x00 [0x01], .read 0x18 1, .read 0x19 1,
      .read 0x20 1, .read 0x21 1, .read 0x22 1, .read 0x23 1, .read 0x24 1, .read 0x25 1, .read 0x26 1, .read 0x27 1]

/-- The lines of `send` with a defined type are a safe run, and they leave the frame of the message in OUT_ID and OUT_D, bytes 1 to 7 as the
caller left them (30_encoding.md R79; 70_reset_and_hazards.md R179). -/
def Obligations.SendLeavesTheFrameOfTheMessage : Prop :=
  ∀ (s : State) (n t sw : Byte), s.resetAsserted = false → s.noError → t.toNat % 8 ≤ 3 →
    let start : State := { s with inputs := (pseudoSend n t sw).map .host }
    safeRun 14 start ∧ ∃ u, runSteps 14 start = .next u ∧ u.inputs = [] ∧
      u.regs.frame.outId.toNat = 8 * n.toNat + t.toNat % 8 ∧ u.regs.frame.outD[0] = sw &&& 0x01 ∧
      (∀ (k : Nat) (h : k < 8), 1 ≤ k → u.regs.frame.outD[k] = s.regs.operands.inD[k]) ∧
      u.hostData = some s.regs.operands.inD[7]

/-- An access by address of more than one byte that reaches the window is refused, wherever it starts, for both primitives (00_scope.md R12;
20_memory.md R53). That it is presented at the first byte of the window it touches is the model's (log entry 2). -/
def Obligations.WideAccessesIntoTheWindowAreRefused : Prop :=
  ∀ (base addr width : Nat) (data : List Byte) (s : State) (rest : List Input), s.resetAsserted = false →
    (width ≠ 1 → Spec.touchesWindow base addr width →
      step { s with inputs := busInputs base [.memRead addr width] ++ rest } = .refused .accessWidth) ∧
    (data.length ≠ 1 → Spec.touchesWindow base addr data.length →
      step { s with inputs := busInputs base [.memWrite addr data] ++ rest } = .refused .accessWidth)

/-- A program of a foreground and interrupt handlers is refused exactly where some course of events makes a command sequence be entered again
after another has begun; otherwise every course of events goes on, with its accesses as the acts to come (70_reset_and_hazards.md R176,
92_eei_decisions.md D30). The form of a program and of its events is the model's (log entries 8 and 14). -/
def Obligations.ProgramsAHandlerCanDisturbAreRefused : Prop :=
  ∀ (p : HostProgram) (s : State),
    ((∃ events, Spec.entersAgain (hostOrder p events)) → ∀ events, loadHostProgram p events s = .refused .interleavedSequences) ∧
    (¬(∃ events, Spec.entersAgain (hostOrder p events)) → ∀ events,
      loadHostProgram p events s = .next { s with inputs := (hostOrder p events).map (fun a => .host a.access) })
end

