-- ==== Sys2Proof/Laws/Operands.lean ====
section
/-! SUPPORT. The bit and number laws of the operand functions, of the window's registers and of slot placement: what later proofs cite in place
of unfolding them. -/

namespace Sys2Proof.Machine

/-- One bit of EncodeId: the type below bit 3, the node from bit 3 on. -/
theorem encodeId_getLsbD (n : Byte) (t : TypeBits) (k : Nat) :
    (encodeId n t).getLsbD k = if k < 3 then t.getLsbD k else n.getLsbD (k - 3) := by
  by_cases h3 : k < 3
  · simp [encodeId, h3, show k < 11 by omega]
  · have ht : t.getLsbD k = false := t.getLsbD_of_ge k (by omega)
    by_cases h11 : k < 11
    · simp [encodeId, h3, h11, ht]
    · simp [encodeId, h3, h11, n.getLsbD_of_ge (k - 3) (by omega)]

/-- The type field of an encoded identifier is the type. -/
@[simp] theorem typeOf_encodeId (n : Byte) (t : TypeBits) : typeOf (encodeId n t) = t := by
  apply BitVec.eq_of_getLsbD_eq
  intro k hk
  simp [typeOf, encodeId_getLsbD, hk]

/-- The node field of an encoded identifier is the node. -/
@[simp] theorem nodeOf_encodeId (n : Byte) (t : TypeBits) : nodeOf (encodeId n t) = n := by
  apply BitVec.eq_of_getLsbD_eq
  intro k hk
  simp [nodeOf, encodeId_getLsbD, hk]

/-- An identifier is the encoding of its two fields. -/
@[simp] theorem encodeId_nodeOf_typeOf (ident : Ident) : encodeId (nodeOf ident) (typeOf ident) = ident := by
  apply BitVec.eq_of_getLsbD_eq
  intro k hk
  rw [encodeId_getLsbD]
  by_cases h3 : k < 3
  · simp [typeOf, h3]
  · simp [nodeOf, h3, show k - 3 < 8 by omega, show 3 + (k - 3) = k by omega]

/-- A reserved type is one of 4 to 7. -/
theorem isReservedType_iff (t : TypeBits) : isReservedType t = true ↔ 4 ≤ t.toNat := by
  revert t; decide

/-- A match is agreement in every bit whose mask bit is 1. -/
theorem identMatches_iff (f m ident : Ident) :
    identMatches f m ident = true ↔ ∀ k < 11, m.getLsbD k = true → ident.getLsbD k = f.getLsbD k := by
  rw [identMatches, beq_iff_eq]
  constructor
  · intro h k _ hm
    have hk := congrArg (fun x : Ident => x.getLsbD k) h
    simp [hm] at hk
    cases hi : ident.getLsbD k <;> cases hf : f.getLsbD k <;> simp_all
  · intro h
    apply BitVec.eq_of_getLsbD_eq
    intro k hk
    cases hm : m.getLsbD k
    · simp [hm]
    · simp [hm, h k hk hm]

/-- An empty slot hits nothing. -/
@[simp] theorem slotHit_empty (ident : Ident) : slotHit Slot.empty ident = false := rfl

/-- A configured slot hits what its pair matches. -/
@[simp] theorem slotHit_configured (f m ident : Ident) : slotHit (configuredSlot f m) ident = identMatches f m ident := rfl

/-- One bit of an identifier after its low byte is set. -/
theorem setLowByte_getLsbD (x : Ident) (v : Byte) (k : Nat) :
    (setLowByte x v).getLsbD k = if k < 8 then v.getLsbD k else x.getLsbD k := by
  simp only [setLowByte, BitVec.getLsbD_cast, BitVec.getLsbD_append, BitVec.getLsbD_extractLsb']
  by_cases h8 : k < 8
  · simp [h8]
  · by_cases h11 : k < 11
    · simp [h8, show k - 8 < 3 by omega, show 8 + (k - 8) = k by omega]
    · simp [h8, show ¬ k - 8 < 3 by omega, x.getLsbD_of_ge k (by omega)]

/-- One bit of an identifier after its high part is set. -/
theorem setHighBits_getLsbD (x : Ident) (v : Byte) (k : Nat) :
    (setHighBits x v).getLsbD k = if k < 8 then x.getLsbD k else if k < 11 then v.getLsbD (k - 8) else false := by
  simp only [setHighBits, BitVec.getLsbD_cast, BitVec.getLsbD_append, BitVec.getLsbD_extractLsb']
  by_cases h8 : k < 8
  · simp [h8]
  · by_cases h11 : k < 11
    · simp [h8, h11, show k - 8 < 3 by omega]
    · simp [h8, h11, show ¬ k - 8 < 3 by omega]

/-- One bit of the low byte. -/
theorem lowByte_getLsbD (x : Ident) (k : Nat) : (lowByte x).getLsbD k = (decide (k < 8) && x.getLsbD k) := by
  simp [lowByte]

/-- One bit of the high byte. -/
theorem highByte_getLsbD (x : Ident) (k : Nat) : (highByte x).getLsbD k = (decide (k < 3) && x.getLsbD (8 + k)) := by
  by_cases h : k < 3
  · simp [highByte, h, show k < 8 by omega]
  · simp [highByte, h]

/-- One bit of a one-bit register's byte. -/
theorem bitByte_getLsbD (b : Bool) (k : Nat) : (bitByte b).getLsbD k = (decide (k = 0) && b) := by
  cases b <;> by_cases h : k = 0 <;> simp [bitByte, h]

/-- One bit of a three-bit register's byte. -/
theorem typeByte_getLsbD (t : TypeBits) (k : Nat) : (typeByte t).getLsbD k = t.getLsbD k := by
  by_cases h : k < 3
  · simp [typeByte, show k < 8 by omega]
  · simp [typeByte, t.getLsbD_of_ge k (by omega)]

/-- One bit of the STATUS byte (R24). -/
theorem statusByte_getLsbD (st : Status) (sf : SlotFile) : ∀ k < 8, (statusByte st sf).getLsbD k =
    match k with
    | 0 => st.terr
    | 1 => st.cerr
    | 2 => sf.fslot
    | 3 => sf.slot1.valid
    | 4 => sf.slot2.valid
    | _ => false := by
  obtain ⟨te, ce⟩ := st
  obtain ⟨fs, ⟨v1, _, _⟩, ⟨v2, _, _⟩⟩ := sf
  simp only [statusByte]
  revert te ce fs v1 v2
  decide

/-- One bit of the MRES byte (R25). -/
theorem mresByte_getLsbD (m : MatchResult) : ∀ k < 8, (mresByte m).getLsbD k =
    match k with
    | 0 => m.acc
    | 1 => m.hit1
    | 2 => m.hit2
    | _ => false := by
  obtain ⟨ac, h1, h2⟩ := m
  simp only [mresByte]
  revert ac h1 h2
  decide

/-- Setting and reading the low byte. -/
@[simp] theorem lowByte_setLowByte (x : Ident) (v : Byte) : lowByte (setLowByte x v) = v := by
  apply BitVec.eq_of_getLsbD_eq
  intro k hk
  rw [lowByte_getLsbD, setLowByte_getLsbD]
  simp [hk]

/-- Setting the low byte keeps the high part. -/
@[simp] theorem highByte_setLowByte (x : Ident) (v : Byte) : highByte (setLowByte x v) = highByte x := by
  apply BitVec.eq_of_getLsbD_eq
  intro k hk
  simp [highByte_getLsbD, setLowByte_getLsbD]

/-- Setting the high part keeps the low byte. -/
@[simp] theorem lowByte_setHighBits (x : Ident) (v : Byte) : lowByte (setHighBits x v) = lowByte x := by
  apply BitVec.eq_of_getLsbD_eq
  intro k hk
  rw [lowByte_getLsbD, lowByte_getLsbD, setHighBits_getLsbD]
  simp [hk]

/-- The high part reads back the three bits written. -/
@[simp] theorem highByte_setHighBits (x : Ident) (v : Byte) : highByte (setHighBits x v) = v &&& 0x07 := by
  have h7 : ∀ k < 8, (0x07 : Byte).getLsbD k = decide (k < 3) := by decide
  apply BitVec.eq_of_getLsbD_eq
  intro k hk
  rw [highByte_getLsbD, setHighBits_getLsbD, BitVec.getLsbD_and, h7 k hk]
  by_cases h : k < 3
  · simp [h, show 8 + k < 11 by omega]
  · simp [h]

/-- Writing both bytes of an identifier gives it, in the order low, high. -/
@[simp] theorem setHighBits_setLowByte (x ident : Ident) : setHighBits (setLowByte x (lowByte ident)) (highByte ident) = ident := by
  apply BitVec.eq_of_getLsbD_eq
  intro k hk
  rw [setHighBits_getLsbD, setLowByte_getLsbD, lowByte_getLsbD, highByte_getLsbD]
  by_cases h8 : k < 8
  · simp [h8]
  · simp [h8, hk, show k - 8 < 3 by omega, show 8 + (k - 8) = k by omega]

/-- A property of every offset, from the 64 numbers it can be. -/
theorem offset_forall {P : Offset → Prop} (h : ∀ n < 64, P (BitVec.ofNat 6 n)) (off : Offset) : P off := by
  simpa using h off.toNat off.isLt

/-- A named register stands at its offset. -/
@[simp] theorem regAt_regOffset (reg : Reg) : regAt (regOffset reg) = some reg := by
  cases reg with
  | inD i => revert i; decide
  | outD i => revert i; decide
  | _ => rfl

/-- A register stands at no offset but its own. -/
theorem eq_regOffset_of_regAt {off : Offset} {reg : Reg} (h : regAt off = some reg) : off = regOffset reg := by
  have hall : ∀ off : Offset, ((regAt off).map regOffset).all (· == off) = true := by decide
  have := hall off
  simp only [h, Option.map_some, Option.all_some, beq_iff_eq] at this
  exact this.symm

/-- Everything slot placement can do. -/
theorem placeFilter_cases (sf : SlotFile) (f m : Ident) :
    (sf.fslot = false ∧ placeFilter sf f m = { fslot := true, slot1 := configuredSlot f m, slot2 := sf.slot2 }) ∨
    (sf.fslot = true ∧ placeFilter sf f m = { fslot := true, slot1 := sf.slot1, slot2 := configuredSlot f m }) := by
  cases h : sf.fslot
  · exact .inl ⟨rfl, by simp [placeFilter, h]⟩
  · exact .inr ⟨rfl, by simp [placeFilter, h]⟩

/-- A host write of one byte changes the operand group alone. -/
theorem writeByte_eq_withOperands (r : Regs) (off : Offset) (v : Byte) :
    ∃ o, writeByte r off v = r.withOperands o := by
  cases h : regAt off with
  | none => exact ⟨r.operands, by simp [writeByte, h]; rfl⟩
  | some reg => exact ⟨writeOperand r.operands v reg, by simp [writeByte, h]⟩

/-- Reading a register depends only on the register file, so a reserved offset reads 0. -/
theorem readByte_reserved (r : Regs) {off : Offset} (h : regAt off = none) : readByte r off = 0x00 := by
  simp [readByte, h]

/-- Reading at a named register's offset reads the register. -/
@[simp] theorem readByte_regOffset (r : Regs) (reg : Reg) : readByte r (regOffset reg) = readReg r reg := by
  simp [readByte]

end Sys2Proof.Machine
end

