-- ==== Sys2Proof/Laws/State.lean ====
section
/-! SUPPORT. One lemma per field per update of the state and of the register record, each true by rfl, so that no later proof unfolds a
record update. -/

namespace Sys2Proof.Machine

@[simp] theorem Regs.withOperands_operands (r : Regs) (v : Operands) : (r.withOperands v).operands = v := rfl
@[simp] theorem Regs.withOperands_frame (r : Regs) (v : Operands) : (r.withOperands v).frame = r.frame := rfl
@[simp] theorem Regs.withOperands_message (r : Regs) (v : Operands) : (r.withOperands v).message = r.message := rfl
@[simp] theorem Regs.withOperands_mres (r : Regs) (v : Operands) : (r.withOperands v).mres = r.mres := rfl
@[simp] theorem Regs.withOperands_status (r : Regs) (v : Operands) : (r.withOperands v).status = r.status := rfl
@[simp] theorem Regs.withOperands_slots (r : Regs) (v : Operands) : (r.withOperands v).slots = r.slots := rfl

@[simp] theorem Regs.withFrame_operands (r : Regs) (v : Frame) : (r.withFrame v).operands = r.operands := rfl
@[simp] theorem Regs.withFrame_frame (r : Regs) (v : Frame) : (r.withFrame v).frame = v := rfl
@[simp] theorem Regs.withFrame_message (r : Regs) (v : Frame) : (r.withFrame v).message = r.message := rfl
@[simp] theorem Regs.withFrame_mres (r : Regs) (v : Frame) : (r.withFrame v).mres = r.mres := rfl
@[simp] theorem Regs.withFrame_status (r : Regs) (v : Frame) : (r.withFrame v).status = r.status := rfl
@[simp] theorem Regs.withFrame_slots (r : Regs) (v : Frame) : (r.withFrame v).slots = r.slots := rfl

@[simp] theorem Regs.withMessage_operands (r : Regs) (v : Message) : (r.withMessage v).operands = r.operands := rfl
@[simp] theorem Regs.withMessage_frame (r : Regs) (v : Message) : (r.withMessage v).frame = r.frame := rfl
@[simp] theorem Regs.withMessage_message (r : Regs) (v : Message) : (r.withMessage v).message = v := rfl
@[simp] theorem Regs.withMessage_mres (r : Regs) (v : Message) : (r.withMessage v).mres = r.mres := rfl
@[simp] theorem Regs.withMessage_status (r : Regs) (v : Message) : (r.withMessage v).status = r.status := rfl
@[simp] theorem Regs.withMessage_slots (r : Regs) (v : Message) : (r.withMessage v).slots = r.slots := rfl

@[simp] theorem Regs.withMres_operands (r : Regs) (v : MatchResult) : (r.withMres v).operands = r.operands := rfl
@[simp] theorem Regs.withMres_frame (r : Regs) (v : MatchResult) : (r.withMres v).frame = r.frame := rfl
@[simp] theorem Regs.withMres_message (r : Regs) (v : MatchResult) : (r.withMres v).message = r.message := rfl
@[simp] theorem Regs.withMres_mres (r : Regs) (v : MatchResult) : (r.withMres v).mres = v := rfl
@[simp] theorem Regs.withMres_status (r : Regs) (v : MatchResult) : (r.withMres v).status = r.status := rfl
@[simp] theorem Regs.withMres_slots (r : Regs) (v : MatchResult) : (r.withMres v).slots = r.slots := rfl

@[simp] theorem Regs.withStatus_operands (r : Regs) (v : Status) : (r.withStatus v).operands = r.operands := rfl
@[simp] theorem Regs.withStatus_frame (r : Regs) (v : Status) : (r.withStatus v).frame = r.frame := rfl
@[simp] theorem Regs.withStatus_message (r : Regs) (v : Status) : (r.withStatus v).message = r.message := rfl
@[simp] theorem Regs.withStatus_mres (r : Regs) (v : Status) : (r.withStatus v).mres = r.mres := rfl
@[simp] theorem Regs.withStatus_status (r : Regs) (v : Status) : (r.withStatus v).status = v := rfl
@[simp] theorem Regs.withStatus_slots (r : Regs) (v : Status) : (r.withStatus v).slots = r.slots := rfl

@[simp] theorem Regs.withSlots_operands (r : Regs) (v : SlotFile) : (r.withSlots v).operands = r.operands := rfl
@[simp] theorem Regs.withSlots_frame (r : Regs) (v : SlotFile) : (r.withSlots v).frame = r.frame := rfl
@[simp] theorem Regs.withSlots_message (r : Regs) (v : SlotFile) : (r.withSlots v).message = r.message := rfl
@[simp] theorem Regs.withSlots_mres (r : Regs) (v : SlotFile) : (r.withSlots v).mres = r.mres := rfl
@[simp] theorem Regs.withSlots_status (r : Regs) (v : SlotFile) : (r.withSlots v).status = r.status := rfl
@[simp] theorem Regs.withSlots_slots (r : Regs) (v : SlotFile) : (r.withSlots v).slots = v := rfl

@[simp] theorem State.withRegs_regs (s : State) (v : Regs) : (s.withRegs v).regs = v := rfl
@[simp] theorem State.withRegs_inputs (s : State) (v : Regs) : (s.withRegs v).inputs = s.inputs := rfl
@[simp] theorem State.withRegs_resetAsserted (s : State) (v : Regs) : (s.withRegs v).resetAsserted = s.resetAsserted := rfl
@[simp] theorem State.withRegs_hostData (s : State) (v : Regs) : (s.withRegs v).hostData = s.hostData := rfl
@[simp] theorem State.withRegs_rxAnswer (s : State) (v : Regs) : (s.withRegs v).rxAnswer = s.rxAnswer := rfl
@[simp] theorem State.withRegs_races (s : State) (v : Regs) : (s.withRegs v).races = s.races := rfl

@[simp] theorem State.withInputs_regs (s : State) (v : List Input) : (s.withInputs v).regs = s.regs := rfl
@[simp] theorem State.withInputs_inputs (s : State) (v : List Input) : (s.withInputs v).inputs = v := rfl
@[simp] theorem State.withInputs_resetAsserted (s : State) (v : List Input) : (s.withInputs v).resetAsserted = s.resetAsserted := rfl
@[simp] theorem State.withInputs_hostData (s : State) (v : List Input) : (s.withInputs v).hostData = s.hostData := rfl
@[simp] theorem State.withInputs_rxAnswer (s : State) (v : List Input) : (s.withInputs v).rxAnswer = s.rxAnswer := rfl
@[simp] theorem State.withInputs_races (s : State) (v : List Input) : (s.withInputs v).races = s.races := rfl

@[simp] theorem State.withResetAsserted_regs (s : State) (v : Bool) : (s.withResetAsserted v).regs = s.regs := rfl
@[simp] theorem State.withResetAsserted_inputs (s : State) (v : Bool) : (s.withResetAsserted v).inputs = s.inputs := rfl
@[simp] theorem State.withResetAsserted_resetAsserted (s : State) (v : Bool) : (s.withResetAsserted v).resetAsserted = v := rfl
@[simp] theorem State.withResetAsserted_hostData (s : State) (v : Bool) : (s.withResetAsserted v).hostData = s.hostData := rfl
@[simp] theorem State.withResetAsserted_rxAnswer (s : State) (v : Bool) : (s.withResetAsserted v).rxAnswer = s.rxAnswer := rfl
@[simp] theorem State.withResetAsserted_races (s : State) (v : Bool) : (s.withResetAsserted v).races = s.races := rfl

@[simp] theorem State.withHostData_regs (s : State) (v : Byte) : (s.withHostData v).regs = s.regs := rfl
@[simp] theorem State.withHostData_inputs (s : State) (v : Byte) : (s.withHostData v).inputs = s.inputs := rfl
@[simp] theorem State.withHostData_resetAsserted (s : State) (v : Byte) : (s.withHostData v).resetAsserted = s.resetAsserted := rfl
@[simp] theorem State.withHostData_hostData (s : State) (v : Byte) : (s.withHostData v).hostData = some v := rfl
@[simp] theorem State.withHostData_rxAnswer (s : State) (v : Byte) : (s.withHostData v).rxAnswer = s.rxAnswer := rfl
@[simp] theorem State.withHostData_races (s : State) (v : Byte) : (s.withHostData v).races = s.races := rfl

@[simp] theorem State.withRxAnswer_regs (s : State) (v : RxAnswer) : (s.withRxAnswer v).regs = s.regs := rfl
@[simp] theorem State.withRxAnswer_inputs (s : State) (v : RxAnswer) : (s.withRxAnswer v).inputs = s.inputs := rfl
@[simp] theorem State.withRxAnswer_resetAsserted (s : State) (v : RxAnswer) : (s.withRxAnswer v).resetAsserted = s.resetAsserted := rfl
@[simp] theorem State.withRxAnswer_hostData (s : State) (v : RxAnswer) : (s.withRxAnswer v).hostData = s.hostData := rfl
@[simp] theorem State.withRxAnswer_rxAnswer (s : State) (v : RxAnswer) : (s.withRxAnswer v).rxAnswer = some v := rfl
@[simp] theorem State.withRxAnswer_races (s : State) (v : RxAnswer) : (s.withRxAnswer v).races = s.races := rfl

@[simp] theorem State.withRaces_regs (s : State) (v : Nat) : (s.withRaces v).regs = s.regs := rfl
@[simp] theorem State.withRaces_inputs (s : State) (v : Nat) : (s.withRaces v).inputs = s.inputs := rfl
@[simp] theorem State.withRaces_resetAsserted (s : State) (v : Nat) : (s.withRaces v).resetAsserted = s.resetAsserted := rfl
@[simp] theorem State.withRaces_hostData (s : State) (v : Nat) : (s.withRaces v).hostData = s.hostData := rfl
@[simp] theorem State.withRaces_rxAnswer (s : State) (v : Nat) : (s.withRaces v).rxAnswer = s.rxAnswer := rfl
@[simp] theorem State.withRaces_races (s : State) (v : Nat) : (s.withRaces v).races = v := rfl

end Sys2Proof.Machine
end

