-- ==== Sys2Proof/Laws/Commands.lean ====
section
/-! SUPPORT. One lemma per meaning: everything it can do, as one next state. -/

namespace Sys2Proof.Machine

/-- A rejected ENC writes TERR and CERR only. -/
theorem execEnc_reserved {s : State} (h : isReservedType s.regs.operands.inType = true) :
    execEnc s = .next (s.withRegs (s.regs.withStatus { terr := true, cerr := false })) := by
  simp [execEnc, typeStatus, h]

/-- An accepted ENC writes the frame. -/
theorem execEnc_accepted {s : State} (h : isReservedType s.regs.operands.inType = false) :
    execEnc s = .next (s.withRegs ((s.regs.withFrame (encodeFrame s.regs.operands)).withStatus { terr := false, cerr := false })) := by
  simp [execEnc, typeStatus, h]

/-- A filter command on a reserved type writes TERR and CERR only. -/
theorem filterRegs_reserved (m : Ident) {r : Regs} (h : isReservedType r.operands.inType = true) :
    filterRegs m r = r.withStatus { terr := true, cerr := false } := by
  simp [filterRegs, typeStatus, h]

/-- An accepted filter command places its pair. -/
theorem filterRegs_accepted (m : Ident) {r : Regs} (h : isReservedType r.operands.inType = false) :
    filterRegs m r = (r.withSlots (placeFilter r.slots (filterValue r.operands) m)).withStatus { terr := false, cerr := false } := by
  simp [filterRegs, typeStatus, h]

/-- The register groups a filter command never writes. -/
theorem filterRegs_frame (m : Ident) (r : Regs) :
    (filterRegs m r).operands = r.operands ∧ (filterRegs m r).frame = r.frame ∧ (filterRegs m r).message = r.message ∧
      (filterRegs m r).mres = r.mres := by
  cases h : isReservedType r.operands.inType
  · simp [filterRegs_accepted m h]
  · simp [filterRegs_reserved m h]

/-- No command touches the model's own fields: each is a change of the registers. -/
theorem exec_eq_withRegs (i : Instr) (s : State) : ∃ r, exec i s = .next (s.withRegs r) := by
  cases i with
  | enc =>
    cases h : isReservedType s.regs.operands.inType
    · exact ⟨_, execEnc_accepted h⟩
    · exact ⟨_, execEnc_reserved h⟩
  | _ => exact ⟨_, rfl⟩

end Sys2Proof.Machine
end

