-- ==== Sys2Proof/Laws/PerInstr.lean ====
section
/-! SUPPORT. Family `EncodingInRow` (LAWS.json): a well-formed command's CMD byte agrees with the fixed bits of its row of
spec/opcode_table.json. One lemma per constructor. -/

namespace Sys2Proof.Laws.EncodingInRow

/-- The fixed-bit mask of each command's row. -/
def rowMask : Instr → Byte
  | .nop => 0xFF
  | .enc => 0xFF
  | .dec => 0xFF
  | .init => 0xFF
  | .fstrict => 0xFF
  | .ffirst => 0xFF
  | .matchIdent => 0xFF
  | .illegalOp7 => 0xFF
  | .illegalZ7 _ => 0x80
  | .illegalZ6 _ => 0xC0
  | .illegalZ5 _ => 0xE0
  | .illegalZ4 _ => 0xF0
  | .illegalZ3 _ => 0xF8

/-- The value of the fixed bits of each command's row. -/
def rowMatch : Instr → Byte
  | .nop => 0x00
  | .enc => 0x01
  | .dec => 0x02
  | .init => 0x03
  | .fstrict => 0x04
  | .ffirst => 0x05
  | .matchIdent => 0x06
  | .illegalOp7 => 0x07
  | .illegalZ7 _ => 0x80
  | .illegalZ6 _ => 0x40
  | .illegalZ5 _ => 0x20
  | .illegalZ4 _ => 0x10
  | .illegalZ3 _ => 0x08

/-- The encoding of a well-formed command lies in its row. -/
def Statement (i : Instr) : Prop := i.wf = true → encode i &&& rowMask i = rowMatch i

theorem nop : Statement .nop := fun _ => by decide
theorem enc : Statement .enc := fun _ => by decide
theorem dec : Statement .dec := fun _ => by decide
theorem init : Statement .init := fun _ => by decide
theorem fstrict : Statement .fstrict := fun _ => by decide
theorem ffirst : Statement .ffirst := fun _ => by decide
theorem matchIdent : Statement .matchIdent := fun _ => by decide
theorem illegalOp7 : Statement .illegalOp7 := fun _ => by decide
theorem illegalZ7 (v : Byte) : Statement (.illegalZ7 v) := fun h => beq_iff_eq.mp h
theorem illegalZ6 (v : Byte) : Statement (.illegalZ6 v) := fun h => beq_iff_eq.mp h
theorem illegalZ5 (v : Byte) : Statement (.illegalZ5 v) := fun h => beq_iff_eq.mp h
theorem illegalZ4 (v : Byte) : Statement (.illegalZ4 v) := fun h => beq_iff_eq.mp h
theorem illegalZ3 (v : Byte) : Statement (.illegalZ3 v) := fun h => beq_iff_eq.mp h

end Sys2Proof.Laws.EncodingInRow
end

