-- ==== Sys2Proof/Laws/Program.lean ====
section
/-! SUPPORT. What a host program's checks decide, and how the host runs a piece of code: what the bus presents to the CFC, when sequences of an
order interleave, and where code is open to handlers. -/

namespace Sys2Proof.Machine

/-! ### Accesses by address -/

/-- An access of one byte at an offset of the window. -/
theorem busOffset_one (base : Nat) (off : Offset) : busOffset base (base + off.toNat) 1 = some off := by
  have h := off.isLt
  simp [busOffset, windowOffset, windowBytes]
  omega

/-- An access of at least one byte reaches the window exactly where one of its bytes lies in it. -/
theorem busOffset_isSome {base addr width : Nat} (hw : 0 < width) :
    (busOffset base addr width).isSome = true ↔ ∃ k < width, base ≤ addr + k ∧ addr + k ≤ base + 0x3F := by
  unfold busOffset windowOffset windowBytes
  constructor
  · intro h
    split at h
    · split at h
      · exact ⟨max base addr - addr, by omega, by omega, by omega⟩
      · cases h
    · cases h
  · rintro ⟨k, hk, h1, h2⟩
    rw [if_pos (by omega), if_pos (by omega)]
    rfl

/-! ### Interleaving in one order of accesses -/

/-- A sequence left behind is found again in what follows it. -/
theorem mem_afterSequence_iff (n : SequenceId) (l : List SequencedAccess) :
    (∃ b ∈ afterSequence n l, b.seq = n) ↔
      ∃ (j k : Nat) (b c : SequencedAccess), j < k ∧ l[j]? = some b ∧ l[k]? = some c ∧ b.seq ≠ n ∧ c.seq = n := by
  induction l with
  | nil => simp [afterSequence]
  | cons a l ih =>
    by_cases h : a.seq = n
    · rw [afterSequence, if_pos h, ih]
      constructor
      · rintro ⟨j, k, b, c, hjk, hb, hc, hn⟩
        exact ⟨j + 1, k + 1, b, c, by omega, by simpa, by simpa, hn⟩
      · rintro ⟨j, k, b, c, hjk, hb, hc, hbn, hcn⟩
        cases j with
        | zero => simp at hb; exact absurd (hb ▸ h) hbn
        | succ j =>
          obtain ⟨k, rfl⟩ : ∃ k', k = k' + 1 := ⟨k - 1, by omega⟩
          exact ⟨j, k, b, c, by omega, by simpa using hb, by simpa using hc, hbn, hcn⟩
    · rw [afterSequence, if_neg h]
      constructor
      · rintro ⟨b, hb, hn⟩
        obtain rfl | hb := List.mem_cons.1 hb
        · exact absurd hn h
        · obtain ⟨k, hk, e⟩ := List.getElem_of_mem hb
          exact ⟨0, k + 1, a, b, by omega, by simp, by simp [e, hk], h, hn⟩
      · rintro ⟨j, k, b, c, hjk, _, hc, _, hn⟩
        obtain ⟨k, rfl⟩ : ∃ k', k = k' + 1 := ⟨k - 1, by omega⟩
        exact ⟨c, List.mem_cons_of_mem _ (List.mem_of_getElem? (by simpa using hc)), hn⟩

/-- What `noInterleaving` decides: that no sequence is entered again after another has begun. -/
theorem noInterleaving_eq_false_iff (l : List SequencedAccess) :
    noInterleaving l = false ↔ ∃ (i j k : Nat) (a b c : SequencedAccess), i < j ∧ j < k ∧ l[i]? = some a ∧ l[j]? = some b ∧
      l[k]? = some c ∧ a.seq = c.seq ∧ b.seq ≠ a.seq := by
  induction l with
  | nil => simp [noInterleaving]
  | cons x l ih =>
    have h : (afterSequence x.seq l).all (fun b => b.seq != x.seq) = false ↔ ∃ b ∈ afterSequence x.seq l, b.seq = x.seq := by simp
    rw [noInterleaving, Bool.and_eq_false_iff, h, mem_afterSequence_iff, ih]
    constructor
    · rintro (⟨j, k, b, c, hjk, hb, hc, hbx, hcx⟩ | ⟨i, j, k, a, b, c, hij, hjk, ha, hb, hc, hac, hba⟩)
      · exact ⟨0, j + 1, k + 1, x, b, c, by omega, by omega, by simp, by simpa, by simpa, hcx.symm, hbx⟩
      · exact ⟨i + 1, j + 1, k + 1, a, b, c, by omega, by omega, by simpa, by simpa, by simpa, hac, hba⟩
    · rintro ⟨i, j, k, a, b, c, hij, hjk, ha, hb, hc, hac, hba⟩
      obtain ⟨j, rfl⟩ : ∃ j', j = j' + 1 := ⟨j - 1, by omega⟩
      obtain ⟨k, rfl⟩ : ∃ k', k = k' + 1 := ⟨k - 1, by omega⟩
      cases i with
      | zero =>
        simp at ha hb hc
        subst ha
        exact .inl ⟨j, k, b, c, by omega, hb, hc, hba, hac.symm⟩
      | succ i => exact .inr ⟨i, j, k, a, b, c, by omega, by omega, by simpa using ha, by simpa using hb, by simpa using hc, hac, hba⟩

/-! ### Host code -/

/-- Whether interrupts are masked after a list of operations. -/
def maskedThrough (masked : Bool) (ops : List HostOp) : Bool := ops.foldl (fun m op => op.maskedAfter m) masked

@[simp] theorem maskedThrough_nil (m : Bool) : maskedThrough m [] = m := rfl
@[simp] theorem maskedThrough_cons (m : Bool) (op : HostOp) (ops : List HostOp) :
    maskedThrough m (op :: ops) = maskedThrough (op.maskedAfter m) ops := rfl
@[simp] theorem accessesMade_nil (piece : Nat) : accessesMade piece [] = [] := rfl
@[simp] theorem accessesMade_cons (piece : Nat) (op : HostOp) (ops : List HostOp) :
    accessesMade piece (op :: ops) = (op.made piece).toList ++ accessesMade piece ops := by
  cases op <;> rfl
@[simp] theorem accessesMade_append (piece : Nat) (ops ops' : List HostOp) :
    accessesMade piece (ops ++ ops') = accessesMade piece ops ++ accessesMade piece ops' := by
  simp [accessesMade]

/-- The sequences of a piece's accesses are its sequence numbers under the number of its run. -/
theorem map_seq_accessesMade (piece : Nat) (ops : List HostOp) :
    (accessesMade piece ops).map (·.seq) = (sequenceNumbers ops).map (fun n => { piece := piece, number := n }) := by
  unfold sequenceNumbers
  induction ops with
  | nil => rfl
  | cons op ops ih => cases op <;> simp [HostOp.made, ih]

@[simp] theorem sequenceNumbers_append (ops ops' : List HostOp) :
    sequenceNumbers (ops ++ ops') = sequenceNumbers ops ++ sequenceNumbers ops' := by
  simp [sequenceNumbers]

/-- What `interruptible` decides: that interrupts are unmasked after some first part of the code. -/
theorem interruptible_iff (m : Bool) (ops : List HostOp) :
    interruptible m ops = true ↔ ∃ pre rest, ops = pre ++ rest ∧ maskedThrough m pre = false := by
  induction ops generalizing m with
  | nil => simp [interruptible]
  | cons op ops ih =>
    rw [interruptible, Bool.or_eq_true, ih]
    constructor
    · rintro (h | ⟨pre, rest, rfl, h⟩)
      · exact ⟨[], _, rfl, by simpa using h⟩
      · exact ⟨op :: pre, rest, rfl, h⟩
    · rintro ⟨pre, rest, h, hm⟩
      cases pre with
      | nil => exact .inl (by simpa using hm)
      | cons op' pre =>
        obtain ⟨rfl, rfl⟩ := List.cons.inj h
        exact .inr ⟨pre, rest, rfl, hm⟩

/-- What `openInside` decides: that interrupts are unmasked at a point with one sequence on both sides of it. -/
theorem openInside_iff (m : Bool) (seen : List Nat) (ops : List HostOp) :
    openInside m seen ops = true ↔ ∃ pre rest n, ops = pre ++ rest ∧ maskedThrough m pre = false ∧ n ∈ sequenceNumbers rest ∧
      (n ∈ seen ∨ n ∈ sequenceNumbers pre) := by
  induction ops generalizing m seen with
  | nil => simp [openInside, sequenceNumbers]
  | cons op ops ih =>
    rw [openInside, Bool.or_eq_true, ih]
    constructor
    · rintro (h | ⟨pre, rest, n, rfl, hm, hn, hs⟩)
      · simp only [Bool.and_eq_true, List.any_eq_true, Bool.not_eq_true', List.contains_iff_mem] at h
        obtain ⟨hm, n, hn, hs⟩ := h
        exact ⟨[], _, n, rfl, hm, hn, .inl hs⟩
      · refine ⟨op :: pre, rest, n, rfl, hm, hn, ?_⟩
        rw [← List.singleton_append, sequenceNumbers_append, List.mem_append]
        rw [List.mem_append] at hs
        tauto
    · rintro ⟨pre, rest, n, h, hm, hn, hs⟩
      cases pre with
      | nil =>
        obtain rfl : op :: ops = rest := h
        have hs : n ∈ seen := by simpa [sequenceNumbers] using hs
        exact .inl (by simpa using ⟨by simpa using hm, n, hn, hs⟩)
      | cons op' pre =>
        obtain ⟨rfl, rfl⟩ := List.cons.inj h
        refine .inr ⟨pre, rest, n, rfl, hm, hn, ?_⟩
        rw [← List.singleton_append, sequenceNumbers_append, List.mem_append] at hs
        rw [List.mem_append]
        tauto

/-- The running piece goes on through a first part of its code without an interrupt. -/
theorem order_through (p : HostProgram) (events : List HostEvent) (pre : List HostOp) (piece : Nat) (m : Bool) (rest : List HostOp)
    (below : List Activation) (started : Nat) :
    HostRun.order p ⟨⟨piece, ⟨m, pre ++ rest⟩⟩, below, started⟩ (List.replicate pre.length .go ++ events) =
      accessesMade piece pre ++ HostRun.order p ⟨⟨piece, ⟨maskedThrough m pre, rest⟩⟩, below, started⟩ events := by
  induction pre generalizing m with
  | nil => rfl
  | cons op pre ih =>
    simp only [List.length_cons, List.replicate_succ, List.cons_append, HostRun.order, accessesMade_cons, List.append_assoc,
      maskedThrough_cons]
    congr 1
    exact ih _

/-- A handler that can run is one of the program's, and the foreground has a point at which interrupts are unmasked. -/
theorem mem_liveHandlers_iff (p : HostProgram) (h : HostCode) :
    h ∈ liveHandlers p ↔ h ∈ p.handlers ∧
      ∃ pre rest, p.foreground.ops = pre ++ rest ∧ maskedThrough p.foreground.masked pre = false := by
  rw [← interruptible_iff, liveHandlers]
  split <;> simp [*]

/-- A handler begins where interrupts are unmasked. -/
theorem order_interrupt {p : HostProgram} {k : Nat} {h : HostCode} (hk : p.handlers[k]? = some h) (piece : Nat) (ops : List HostOp)
    (below : List Activation) (started : Nat) (events : List HostEvent) :
    HostRun.order p ⟨⟨piece, ⟨false, ops⟩⟩, below, started⟩ (.interrupt k :: events) =
      HostRun.order p ⟨⟨started + 1, h⟩, ⟨piece, ⟨false, ops⟩⟩ :: below, started + 1⟩ events := by
  simp [HostRun.order, HostRun.made, HostRun.after, HostRun.interrupt, hk]

/-- A handler at its end returns to what it interrupted. -/
theorem order_return (p : HostProgram) (piece : Nat) (m : Bool) (a : Activation) (below : List Activation) (started : Nat)
    (events : List HostEvent) :
    HostRun.order p ⟨⟨piece, ⟨m, []⟩⟩, a :: below, started⟩ (.go :: events) = HostRun.order p ⟨a, below, started⟩ events := by
  simp [HostRun.order, HostRun.made, HostRun.after, HostRun.go]

end Sys2Proof.Machine
end

