-- ==== Sys2Proof/Laws/Step.lean ====
section
/-! SUPPORT. What each operation around a command can do when it answers a next state, and from these everything a step can do. -/

namespace Sys2Proof.Machine

/-- A one-byte host read outside reset. -/
theorem hostAccess_read (off : Offset) {s : State} (h : s.resetAsserted = false) :
    hostAccess (.read off 1) s = .next (s.withHostData (readByte s.regs off)) := by
  simp [hostAccess, hostRead, h]

/-- A one-byte host write to CMD outside reset. -/
theorem hostAccess_command (v : Byte) {s : State} (h : s.resetAsserted = false) :
    hostAccess (.write 0x00 [v]) s = exec (decode v) s := by
  simp [hostAccess, hostWrite, regOffset, command, h]

/-- A one-byte host write to another offset outside reset. -/
theorem hostAccess_write {off : Offset} (v : Byte) {s : State} (h : s.resetAsserted = false) (ho : off ≠ 0x00) :
    hostAccess (.write off [v]) s = .next (s.withRegs (writeByte s.regs off v)) := by
  have hc : off ≠ regOffset .cmd := ho
  simp [hostAccess, hostWrite, h, hc]

/-- A step whose next act is a host access. -/
theorem step_host (s : State) (a : HostAccess) (rest : List Input) :
    step (s.withInputs (.host a :: rest)) = hostAccess a (s.withInputs rest) := rfl

/-- A host read that goes on is one byte wide and only returns that byte. -/
theorem hostRead_next {off : Offset} {width : Nat} {s t : State} (h : hostRead off width s = .next t) :
    width = 1 ∧ t = s.withHostData (readByte s.regs off) := by
  unfold hostRead at h
  split at h
  · exact ⟨‹_›, by simpa using h.symm⟩
  · cases h

/-- A host write that goes on is one byte: a command at CMD, a register write elsewhere. -/
theorem hostWrite_next {off : Offset} {data : List Byte} {s t : State} (h : hostWrite off data s = .next t) :
    ∃ v, data = [v] ∧
      ((off = regOffset .cmd ∧ exec (decode v) s = .next t) ∨
        (off ≠ regOffset .cmd ∧ t = s.withRegs (writeByte s.regs off v))) := by
  match data, h with
  | [v], h =>
    refine ⟨v, rfl, ?_⟩
    by_cases hc : off = regOffset .cmd
    · exact .inl ⟨hc, by simpa [hostWrite, hc, command] using h⟩
    · exact .inr ⟨hc, by simpa [hostWrite, hc] using h.symm⟩
  | [], h => cases h
  | _ :: _ :: _, h => cases h

/-- Everything a host access can do when it goes on. -/
theorem hostAccess_next {a : HostAccess} {s t : State} (h : hostAccess a s = .next t) :
    s.resetAsserted = false ∧
      ((∃ off, a = .read off 1 ∧ t = s.withHostData (readByte s.regs off)) ∨
       (∃ v, a = .write (regOffset .cmd) [v] ∧ exec (decode v) s = .next t) ∨
       (∃ off v, a = .write off [v] ∧ off ≠ regOffset .cmd ∧ t = s.withRegs (writeByte s.regs off v))) := by
  cases hp : s.resetAsserted with
  | true => simp [hostAccess, hp] at h
  | false =>
    refine ⟨rfl, ?_⟩
    cases a with
    | read off width =>
      obtain ⟨rfl, rfl⟩ := hostRead_next (by simpa [hostAccess, hp] using h)
      exact .inl ⟨off, rfl, rfl⟩
    | write off data =>
      obtain ⟨v, rfl, ⟨rfl, hx⟩ | ⟨hc, rfl⟩⟩ := hostWrite_next (by simpa [hostAccess, hp] using h)
      · exact .inr (.inl ⟨v, rfl, hx⟩)
      · exact .inr (.inr ⟨off, v, rfl, hc, rfl⟩)

/-- A query that goes on is of a standard frame and only sets the answer. -/
theorem answerQuery_next {f : RxFrame} {judged : Regs} {s t : State} (h : answerQuery f judged s = .next t) :
    ∃ rxId, f = .standard rxId ∧ t = s.withRxAnswer (rxPort judged rxId) := by
  cases f with
  | standard rxId => exact ⟨rxId, rfl, by simpa [answerQuery] using h.symm⟩
  | extended _ => cases h
  | remote _ => cases h

/-- An overlapped access that goes on is the access, then the answer judged before or after it. -/
theorem overlapped_next {a : HostAccess} {f : RxFrame} {s t : State} (h : overlapped a f s = .next t) :
    ∃ u rxId, hostAccess a s = .next u ∧ f = .standard rxId ∧
      t = (u.withRaces (s.races + 1)).withRxAnswer (rxPort (judgedRegs s.races s.regs u.regs) rxId) := by
  unfold overlapped at h
  split at h
  · rename_i u hu
    obtain ⟨rxId, rfl, rfl⟩ := answerQuery_next h
    exact ⟨u, rxId, hu, rfl, rfl⟩
  · cases h
  · cases h

/-- Everything a step can do when it goes on: hold the state, or perform the first of the acts to come. -/
theorem step_cases {s t : State} (h : step s = .next t) :
    (s.inputs = [] ∧ t = s) ∨
    (∃ a rest, s.inputs = .host a :: rest ∧ hostAccess a (s.withInputs rest) = .next t) ∨
    (∃ rxId rest, s.inputs = .query (.standard rxId) :: rest ∧
      t = (s.withInputs rest).withRxAnswer (rxPort s.regs rxId)) ∨
    (∃ a rxId rest u, s.inputs = .overlap a (.standard rxId) :: rest ∧ hostAccess a (s.withInputs rest) = .next u ∧
      t = (u.withRaces (s.races + 1)).withRxAnswer (rxPort (judgedRegs s.races s.regs u.regs) rxId)) ∨
    (∃ level rest, s.inputs = .resetPin level :: rest ∧ t = setResetPin level (s.withInputs rest)) := by
  unfold step performNext at h
  cases hi : s.inputs with
  | nil => exact .inl ⟨rfl, by simpa [hi] using h.symm⟩
  | cons i rest =>
    simp only [hi] at h
    refine .inr ?_
    cases i with
    | host a => exact .inl ⟨a, rest, rfl, h⟩
    | query f =>
      obtain ⟨rxId, rfl, rfl⟩ := answerQuery_next (f := f) (judged := s.regs) h
      exact .inr (.inl ⟨rxId, rest, rfl, rfl⟩)
    | overlap a f =>
      obtain ⟨u, rxId, hu, rfl, rfl⟩ := overlapped_next h
      exact .inr (.inr (.inl ⟨a, rxId, rest, u, rfl, hu, rfl⟩))
    | resetPin level => exact .inr (.inr (.inr ⟨level, rest, rfl, by simpa [perform] using h.symm⟩))

end Sys2Proof.Machine
end

