-- ==== Sys2Proof/Laws/Run.lean ====
section
/-! SUPPORT. Running several steps of the machine, one step at a time. -/

namespace Sys2Proof.Machine

/-- The first step of a run that goes on. -/
theorem run_of_next {s t : State} (h : step s = .next t) (k : Nat) : runSteps (k + 1) s = runSteps k t := by
  rw [runSteps, h]

/-- A run whose first act is a one-byte host write to another offset than CMD's, outside reset. -/
theorem run_write {off : Offset} (ho : off ≠ 0x00) (k : Nat) (r : Regs) (v : Byte) (rest : List Input) (hd : Option Byte)
    (rx : Option RxAnswer) (n : Nat) :
    runSteps (k + 1) ⟨r, .host (.write off [v]) :: rest, false, hd, rx, n⟩ =
      runSteps k ⟨writeByte r off v, rest, false, hd, rx, n⟩ :=
  run_of_next (s := ⟨r, .host (.write off [v]) :: rest, false, hd, rx, n⟩)
    (hostAccess_write (s := ⟨r, rest, false, hd, rx, n⟩) v rfl ho) k

/-- A run whose first act is a one-byte host read, outside reset. -/
theorem run_read (off : Offset) (k : Nat) (r : Regs) (rest : List Input) (hd : Option Byte) (rx : Option RxAnswer) (n : Nat) :
    runSteps (k + 1) ⟨r, .host (.read off 1) :: rest, false, hd, rx, n⟩ =
      runSteps k ⟨r, rest, false, some (readByte r off), rx, n⟩ :=
  run_of_next (s := ⟨r, .host (.read off 1) :: rest, false, hd, rx, n⟩)
    (hostAccess_read (s := ⟨r, rest, false, hd, rx, n⟩) off rfl) k

/-- A run whose first act is a one-byte host write to CMD, outside reset. -/
theorem run_command {r : Regs} {v : Byte} {i : Instr} {rest : List Input} {hd : Option Byte} {rx : Option RxAnswer} {n : Nat}
    {t : State} (hi : decode v = i) (hx : exec i ⟨r, rest, false, hd, rx, n⟩ = .next t) (k : Nat) :
    runSteps (k + 1) ⟨r, .host (.write 0x00 [v]) :: rest, false, hd, rx, n⟩ = runSteps k t :=
  run_of_next (s := ⟨r, .host (.write 0x00 [v]) :: rest, false, hd, rx, n⟩)
    ((hostAccess_command (s := ⟨r, rest, false, hd, rx, n⟩) v rfl).trans (hi ▸ hx)) k

/-- The host's run, one step at a time, by the outcome of the step. -/
theorem core_run_succ (M : Host.Core) (k : Nat) (s : M.State) :
    (∀ t, M.step s = .next t → M.run (k + 1) s = M.run k t) ∧ (∀ r, M.step s = .fault r → M.run (k + 1) s = .fault r) ∧
      (∀ r, M.step s = .refused r → M.run (k + 1) s = .refused r) := by
  refine ⟨?_, ?_, ?_⟩ <;> intro x h <;> rw [Host.Core.run, h]

/-- A run of the model is a run of the host's machine. -/
theorem core_run_eq_runSteps (k : Nat) : ∀ s : State, core.run k s = runSteps k s := by
  induction k with
  | zero => intro s; rfl
  | succ k ih =>
    intro s
    obtain ⟨hn, hf, hr⟩ := core_run_succ core k s
    cases h : step s with
    | next t => exact ((hn t h).trans (ih t)).trans (run_of_next h k).symm
    | fault r => exact (hf r h).trans (by rw [runSteps, h]; rfl)
    | refused r => exact (hr r h).trans (by rw [runSteps, h]; rfl)

end Sys2Proof.Machine
end

