-- ==== Sys2Proof/Tests/Slice0.lean ====
section
/-! SUPPORT. The model's own tests. Expected values are the spec's: the vectors V<n> of 95_test_vectors.md and the encodings of
spec/opcode_table.json. After them, one witness for the hypotheses of each statement that has any. -/

open Sys2Proof Sys2Proof.Machine

namespace Sys2Proof.Tests

/-- A machine with these registers and acts to come, out of reset. -/
def machine (r : Regs) (is : List Input) : State := (State.reset.withRegs r).withInputs is

/-- The registers a meaning leaves. -/
def regsAfter : Host.Outcome State Fault Refusal → Option Regs
  | .next t => some t.regs
  | .fault _ => none
  | .refused _ => none

/-- Whether an outcome is this refusal. -/
def isRefusal (e : Refusal) : Host.Outcome State Fault Refusal → Bool
  | .next _ => false
  | .fault _ => false
  | .refused e' => e == e'

/-- The registers after one command byte is written to CMD. -/
def afterCommand (v : Byte) (r : Regs) : Option Regs := regsAfter (step (machine r [.host (.write 0x00 [v])]))

/-- The registers after reset with these operands for ENC and the filter commands. -/
def header (n : Byte) (t : TypeBits) (sw : Bool) : Regs :=
  Regs.reset.withOperands { Operands.reset with inNode := n, inType := t, inSw := sw }

/-- The registers after reset with these operands for DEC and MATCH. -/
def received (ident : Ident) (b0 : Byte) : Regs :=
  Regs.reset.withOperands { Operands.reset with inId := ident, inD := Operands.reset.inD.set 0 b0 }

/-- The slot file of V30 to V37: slot 1 = FFIRST(0x85, Heartbeat), slot 2 = FSTRICT(0xFF, Heartbeat). -/
def twoSlots : SlotFile :=
  { fslot := true, slot1 := { valid := true, filter := 0x429, mask := 0x407 }, slot2 := { valid := true, filter := 0x7F9, mask := 0x7FF } }

/-- The slot file of V38 to V41: slot 1 = FSTRICT(0x05, Config). -/
def oneSlot : SlotFile := { SlotFile.reset with fslot := true, slot1 := { valid := true, filter := 0x02A, mask := 0x7FF } }

/-! ### Well-formedness: an ill-formed term for each check -/

theorem test_wf_refuses_byte_without_bit7 : (Instr.illegalZ7 0x7F).wf = false := by decide
theorem test_wf_refuses_byte_of_row7_in_row6 : (Instr.illegalZ6 0xC0).wf = false := by decide
theorem test_wf_refuses_byte_of_row6_in_row5 : (Instr.illegalZ5 0x60).wf = false := by decide
theorem test_wf_refuses_byte_of_row5_in_row4 : (Instr.illegalZ4 0x30).wf = false := by decide
theorem test_wf_refuses_legal_byte_in_row3 : (Instr.illegalZ3 0x06).wf = false := by decide

/-! ### Decoding: a word written out from the table for every row -/

theorem test_decode_nop : decodeTableWord 8 0b00000000 = some .nop := by decide
theorem test_decode_enc : decodeTableWord 8 0b00000001 = some .enc := by decide
theorem test_decode_dec : decodeTableWord 8 0b00000010 = some .dec := by decide
theorem test_decode_init : decodeTableWord 8 0b00000011 = some .init := by decide
theorem test_decode_fstrict : decodeTableWord 8 0b00000100 = some .fstrict := by decide
theorem test_decode_ffirst : decodeTableWord 8 0b00000101 = some .ffirst := by decide
theorem test_decode_match : decodeTableWord 8 0b00000110 = some .matchIdent := by decide
theorem test_decode_op7 : decodeTableWord 8 0b00000111 = some .illegalOp7 := by decide
theorem test_decode_row7 : decodeTableWord 8 0b10000001 = some (.illegalZ7 0x81) := by decide
theorem test_decode_row6 : decodeTableWord 8 0b01111111 = some (.illegalZ6 0x7F) := by decide
theorem test_decode_row5 : decodeTableWord 8 0b00100000 = some (.illegalZ5 0x20) := by decide
theorem test_decode_row4 : decodeTableWord 8 0b00010110 = some (.illegalZ4 0x16) := by decide
theorem test_decode_row3 : decodeTableWord 8 0b00001000 = some (.illegalZ3 0x08) := by decide

/-! ### Commands -/

/-- V6: payload pass-through, IN_D[0] ignored. -/
theorem test_enc_passes_payload_through :
    (afterCommand 0x01 (Regs.reset.withOperands { Operands.reset with
      inNode := 0x80, inType := 3, inD := #v[0xFF, 0x11, 0, 0, 0, 0, 0, 0x77] })).map (·.frame) =
      some { outId := 0x403, outD := #v[0x01, 0x11, 0, 0, 0, 0, 0, 0x77] } := by decide

/-- V7: a reserved type is rejected. -/
theorem test_enc_rejects_reserved_type :
    afterCommand 0x01 (header 0x12 4 true) = some ((header 0x12 4 true).withStatus { terr := true, cerr := false }) := by decide

/-- V13: a reserved type is reported and the raw fields written. -/
theorem test_dec_reports_reserved_type :
    (afterCommand 0x02 (received 0x7FF 0x80)).map (fun r => (r.message, r.status)) =
      some ({ outNode := 0xFF, outType := 7, outSw := true }, { terr := true, cerr := false }) := by decide

/-- V15: 0x02 is true. -/
theorem test_dec_is_permissive :
    (afterCommand 0x02 (received 0x403 0x02)).map (fun r => (r.message, r.status)) =
      some ({ outNode := 0x80, outType := 3, outSw := true }, { terr := false, cerr := false }) := by decide

/-- V19: STATUS 0x0E becomes 0x0C. -/
theorem test_nop_clears_cerr :
    (afterCommand 0x00 ((Regs.reset.withSlots oneSlot).withStatus { terr := false, cerr := true })).map (readByte · 0x01) =
      some 0x0C := by decide

/-- V21: STATUS, MRES and the slots are cleared. -/
theorem test_init_clears_slots :
    afterCommand 0x03 ((Regs.reset.withSlots twoSlots).withMres { acc := true, hit1 := true, hit2 := true }) = some Regs.reset := by
  decide

/-- V24: the second filter goes to slot 2. -/
theorem test_fstrict_second_slot :
    (afterCommand 0x04 ((header 0x01 0 true).withSlots oneSlot)).map (fun r => (r.slots.slot2, readByte r 0x01)) =
      some ({ valid := true, filter := 0x008, mask := 0x7FF }, 0x1C) := by decide

/-- V27: a reserved type places nothing. -/
theorem test_fstrict_rejects_reserved_type :
    (afterCommand 0x04 (header 0x05 5 true)).map (fun r => (r.slots, readByte r 0x01)) = some (SlotFile.reset, 0x01) := by decide

/-- V26: the first-bit filter, read back through the window. -/
theorem test_ffirst_first_slot :
    (afterCommand 0x05 (header 0x85 1 true)).map (fun r => [readByte r 0x28, readByte r 0x29, readByte r 0x2A, readByte r 0x2B, readByte r 0x01]) =
      some [0x29, 0x04, 0x07, 0x04, 0x0C] := by decide

/-- V25: a third filter overwrites slot 2. -/
theorem test_ffirst_overwrites_slot_two :
    (afterCommand 0x05 ((header 0x85 1 true).withSlots { twoSlots with slot1 := oneSlot.slot1 })).map (·.slots) =
      some { fslot := true, slot1 := oneSlot.slot1, slot2 := { valid := true, filter := 0x429, mask := 0x407 } } := by decide

/-- V37: wildcarded bits differ, slot 1 alone accepts. -/
theorem test_match_wildcard : (afterCommand 0x06 ((received 0x7A9 0).withSlots twoSlots)).map (readByte · 0x02) = some 0x03 := by decide

/-- V35: the type differs in both slots. -/
theorem test_match_rejects_other_type :
    (afterCommand 0x06 ((received 0x7F8 0).withSlots twoSlots)).map (readByte · 0x02) = some 0x00 := by decide

/-- V53: an illegal byte looks at no operand. -/
theorem test_op7_wins_over_type :
    afterCommand 0x07 (header 0x12 4 true) = some ((header 0x12 4 true).withStatus { terr := false, cerr := true }) := by decide

/-- V51, V52 and the other illegal rows. -/
theorem test_illegal_rows :
    [0x81, 0xFF, 0x40, 0x21, 0x12, 0x08].map (afterCommand · Regs.reset) =
      List.replicate 6 (some (Regs.reset.withStatus { terr := false, cerr := true })) := by decide

/-! ### Window, ports, reset -/

/-- V45: bit 0 of 0xFE. -/
theorem test_write_in_sw_keeps_one_bit :
    (regsAfter (step (machine Regs.reset [.host (.write 0x06 [0xFE])]))).map (readByte · 0x06) = some 0x00 := by decide

/-- V44, V47: reserved and read-only offsets ignore writes. -/
theorem test_ignored_writes :
    regsAfter (step (machine Regs.reset [.host (.write 0x3F [0xAA])])) = some Regs.reset ∧
      regsAfter (step (machine Regs.reset [.host (.write 0x28 [0x55])])) = some Regs.reset := by decide

/-- R53, R170: refusals. -/
theorem test_refusals :
    isRefusal .accessWidth (step (machine Regs.reset [.host (.read 0x18 2)])) = true ∧
      isRefusal .accessDuringReset (step ((machine Regs.reset [.host (.read 0x18 1)]).withResetAsserted true)) = true := by decide

/-- V41: a port query. -/
theorem test_receive_port :
    rxPort (Regs.reset.withSlots oneSlot) 0x02A = { accept := true, hit1 := true, hit2 := false, buf := 0 } := by decide

/-- R8, R56: the window at base 0x2000. -/
theorem test_window_offset :
    windowOffset 0x2000 0x203F = some 0x3F ∧ windowOffset 0x2000 0x2040 = none ∧ windowOffset 0x2000 0x1FFF = none := by decide

/-- R12, R53: two bytes from one below the base reach CMD and keep their width; two bytes below it, and from one above the end, do not. -/
theorem test_bus_select_reaches_from_below :
    busSelect 0x2000 (.memWrite 0x1FFF [0x00, 0x04]) = some (.write 0x00 [0x00, 0x04]) ∧
      busSelect 0x2000 (.memRead 0x1FFE 2) = none ∧ busSelect 0x2000 (.memRead 0x2040 2) = none ∧
      busSelect 0x2000 (.memRead 0x203F 2) = some (.read 0x3F 2) := by decide

/-- The accesses of pieces of host code: the lines of ENC on the header (5, Config), one sequence. -/
def encodeOps : List HostOp := (pseudoEncode 0x05 0x02 0x01).map (.access 0)

/-- A handler, entered with interrupts masked, that runs MATCH. -/
def matchHandler : HostCode := { masked := true, ops := (pseudoMatch 0x02A).map (.access 0) }

/-- R176: a handler can intervene in an open sequence, and cannot where interrupts are disabled around it. -/
theorem test_handler_can_intervene :
    canInterleave { foreground := { masked := false, ops := encodeOps }, handlers := [matchHandler] } = true ∧
      canInterleave { foreground := { masked := false, ops := .maskInterrupts :: encodeOps ++ [.unmaskInterrupts] },
                      handlers := [matchHandler] } = false := by decide

/-- R176: the handler's accesses land between the foreground's operand write and its command. -/
theorem test_host_order_with_interrupt :
    (hostOrder { foreground := { masked := false, ops := [.access 0 (lineWr .inNode 5), .access 0 (lineCmd .enc)] },
                 handlers := [{ masked := true, ops := [.access 0 (lineCmd .nop)] }] }
      [.go, .interrupt 0, .go, .go, .go]).map (fun a => (a.seq.piece, a.access)) =
      [(0, .write 0x04 [0x05]), (1, .write 0x00 [0x00]), (0, .write 0x00 [0x01])] := by decide

/-! ### Witnesses: the hypotheses of each statement can be met together -/

theorem witness_DecodeOfEncodeIsTheCommand :
    [Instr.nop, .illegalOp7, .illegalZ7 0x80, .illegalZ7 0xFF, .illegalZ6 0x40, .illegalZ6 0x7F, .illegalZ5 0x20, .illegalZ5 0x3F,
      .illegalZ4 0x10, .illegalZ4 0x1F, .illegalZ3 0x08, .illegalZ3 0x0F].all (·.wf) = true := by decide

theorem witness_IllegalBytesDecodeToTheirRow :
    ((0x80 : Byte) &&& 0x80 = 0x80 ∧ (0xFF : Byte) &&& 0x80 = 0x80) ∧ ((0x40 : Byte) &&& 0xC0 = 0x40 ∧ (0x7F : Byte) &&& 0xC0 = 0x40) ∧
    ((0x20 : Byte) &&& 0xE0 = 0x20 ∧ (0x3F : Byte) &&& 0xE0 = 0x20) ∧ ((0x10 : Byte) &&& 0xF0 = 0x10 ∧ (0x1F : Byte) &&& 0xF0 = 0x10) ∧
    ((0x08 : Byte) &&& 0xF8 = 0x08 ∧ (0x0F : Byte) &&& 0xF8 = 0x08) := by decide

theorem witness_StepRunsTheDecodedCommand :
    (machine Regs.reset [.host (.write 0x00 [0x06])]).resetAsserted = false ∧
      (machine Regs.reset [.host (.write 0x00 [0x06])]).inputs = .host (.write 0x00 [0x06]) :: [] := by decide

theorem witness_PlacedWordRunsNext : decodeTableWord 8 0 = some .nop ∧ decodeTableWord 8 255 = some (.illegalZ7 0xFF) := by decide

theorem witness_IdleMachineHoldsItsState : State.reset.inputs = [] := rfl

theorem witness_RefusalsNameTheirCause :
    (State.reset.withResetAsserted true).resetAsserted = true ∧ State.reset.resetAsserted = false ∧
      ¬ Spec.oneByte (.read 0x3F 0) ∧ ¬ Spec.oneByte (.read 0x00 2) ∧ ¬ Spec.oneByte (.write 0x00 []) ∧
      ¬ Spec.oneByte (.write 0x04 [0x01, 0x02]) ∧ Spec.oneByte (.write 0x00 [0x04]) ∧ Spec.oneByte (.read 0x3F 1) ∧
      ¬ Spec.standardFrame (.extended 0) ∧ ¬ Spec.standardFrame (.remote 0x7FF) :=
  ⟨rfl, rfl, by simp [Spec.oneByte], by simp [Spec.oneByte], by simp [Spec.oneByte], by simp [Spec.oneByte], rfl, rfl,
    by simp [Spec.standardFrame], by simp [Spec.standardFrame]⟩

/-- The one hypothesis of the statements about a single access: the reset input is released. -/
theorem witness_reset_released : State.reset.resetAsserted = false := rfl

/-- The hypotheses of the window statements: released reset, offsets other than CMD's, one of each kind the clauses name. -/
theorem witness_OperandWriteKeepsEveryOtherByte :
    State.reset.resetAsserted = false ∧ (0x04 : Offset).toNat ≠ 0x00 ∧ (0x3F : Offset).toNat ≠ 0x00 ∧ (0x3F : Offset) ≠ 0x04 ∧
      (0x04 : Offset).toNat ∈ [0x04, 0x08, 0x10, 0x11, 0x12, 0x13, 0x14, 0x15, 0x16, 0x17] ∧
      (0x17 : Offset).toNat ∈ [0x04, 0x08, 0x10, 0x11, 0x12, 0x13, 0x14, 0x15, 0x16, 0x17] ∧
      (0x05 : Offset).toNat ∈ [0x05, 0x09] ∧ (0x09 : Offset).toNat ∈ [0x05, 0x09] ∧ (0x06 : Offset).toNat = 0x06 := by decide

theorem witness_OperandWritesAreIdempotentCommandsAreNot :
    (machine (header 0xFF 3 true) []).resetAsserted = false ∧ (machine (header 0xFF 3 true) []).regs.operands.inType.toNat ≤ 3 ∧
      (machine (header 0xFF 3 true) []).regs.slots.fslot = false ∧
      (machine (header 0xFF 3 true) []).regs.slots.slot2.valid = false ∧ (0x01 : Offset).toNat ≠ 0x00 := by decide

/-- Addresses on both sides of the window, and accesses that end just below it or begin just above it. -/
theorem witness_WindowStandsAtTheBase :
    (0x1FFF < 0x2000 ∨ 0x2000 + 0x3F < 0x1FFF) ∧ (0x2040 < 0x2000 ∨ 0x2000 + 0x3F < 0x2040) ∧
      windowOffset 0x2000 0x2000 = some 0x00 ∧ windowOffset 0x2000 0x203F = some 0x3F ∧
      ¬ Spec.touchesWindow 0x2000 0x1FFE 2 ∧ ¬ Spec.touchesWindow 0x2000 0x2040 2 := by
  unfold Spec.touchesWindow; decide

/-- Two bytes whose second is CMD, two whose first is the last offset, and three hundred that cover the whole window. -/
theorem witness_WideAccessesIntoTheWindowAreRefused :
    State.reset.resetAsserted = false ∧ Spec.touchesWindow 0x2000 0x1FFF ([0x00, 0x04] : List Byte).length ∧
      Spec.touchesWindow 0x2000 0x203F 2 ∧ Spec.touchesWindow 0x2000 0x1FF0 300 :=
  ⟨rfl, ⟨1, by decide⟩, ⟨0, by decide⟩, ⟨16, by decide⟩⟩

theorem witness_ResetInputRestoresEveryRegister :
    (true = true ∨ State.reset.resetAsserted = true) ∧ (false = true ∨ (State.reset.withResetAsserted true).resetAsserted = true) := by
  decide

/-- A defined type at both ends of its range: EncPayloadByteIsStrict, EncIdentifiersAreInRange. -/
theorem witness_defined_types :
    (machine (header 0x00 0 false) []).regs.operands.inType.toNat ≤ 3 ∧
      (machine (header 0xFF 3 true) []).regs.operands.inType.toNat ≤ 3 := by decide

/-- A reserved type at both ends, for the rejecting branch of ENC, FSTRICT and FFIRST. -/
theorem witness_reserved_types :
    4 ≤ (machine (header 0x12 4 true) []).regs.operands.inType.toNat ∧
      4 ≤ (machine (header 0x12 7 true) []).regs.operands.inType.toNat := by decide

theorem witness_DecReportsReservedTypesAndIsPermissive :
    (machine (received 0x404 0) []).regs.operands.inId.toNat % 8 ∈ [4, 5, 6, 7] ∧
      (machine (received 0x7FF 1) []).regs.operands.inId.toNat % 8 ∈ [4, 5, 6, 7] := by decide

theorem witness_EncodeDecodeRoundTrip :
    State.reset.resetAsserted = false ∧ (3 : TypeBits).toNat ≤ 3 ∧ (0x7FB : Ident).getLsbD 2 = false ∧
      ((0x00 : Byte) = 0x00 ∨ (0x00 : Byte) = 0x01) ∧ ((0x01 : Byte) = 0x00 ∨ (0x01 : Byte) = 0x01) := by decide

/-- Two states that agree on the operands of ENC and DEC and on the last frame, and differ in IN_ID and MRES, or in IN_NODE. -/
theorem witness_CodecResultsDependOnlyOnTheirOperands :
    let s := machine (header 0x05 2 false) []
    let s' := machine ((Regs.reset.withOperands { (header 0x05 2 false).operands with
      inId := 0x7FF, inD := Operands.reset.inD.set 0 0xFF }).withMres { acc := true, hit1 := true, hit2 := false }) []
    (regsAfter (exec .enc s)).isSome = true ∧ (regsAfter (exec .enc s')).isSome = true ∧
      s.regs.operands.inNode = s'.regs.operands.inNode ∧ s.regs.operands.inType = s'.regs.operands.inType ∧
      s.regs.operands.inSw = s'.regs.operands.inSw ∧
      (∀ (k : Nat) (h : k < 8), 1 ≤ k → s.regs.operands.inD[k] = s'.regs.operands.inD[k]) ∧ s.regs.frame = s'.regs.frame ∧ s ≠ s' := by
  decide

theorem witness_CodecResultsDependOnlyOnTheirOperands_dec :
    let s := machine (received 0x42A 0x80) []
    let s' := machine (Regs.reset.withOperands { (received 0x42A 0x80).operands with inNode := 0x33, inType := 7 }) []
    (regsAfter (exec .dec s)).isSome = true ∧ (regsAfter (exec .dec s')).isSome = true ∧
      s.regs.operands.inId = s'.regs.operands.inId ∧ s.regs.operands.inD[0] = s'.regs.operands.inD[0] ∧ s ≠ s' := by
  decide

/-- Offsets the frame clauses of ENC and DEC speak of, next to the ones they leave out. -/
theorem witness_CodecCommandsKeepEveryOtherByte :
    ((0x17 : Offset).toNat ≠ 0x01 ∧ (0x17 : Offset).toNat ≠ 0x18 ∧ (0x17 : Offset).toNat ≠ 0x19 ∧
      ¬(0x20 ≤ (0x17 : Offset).toNat ∧ (0x17 : Offset).toNat ≤ 0x27)) ∧
    ((0x28 : Offset).toNat ≠ 0x01 ∧ (0x28 : Offset).toNat ≠ 0x18 ∧ (0x28 : Offset).toNat ≠ 0x19 ∧
      ¬(0x20 ≤ (0x28 : Offset).toNat ∧ (0x28 : Offset).toNat ≤ 0x27)) ∧
    ((0x1D : Offset).toNat ≠ 0x01 ∧ ¬(0x1A ≤ (0x1D : Offset).toNat ∧ (0x1D : Offset).toNat ≤ 0x1C)) := by decide

theorem witness_IllegalCommandsSetOnlyCerr :
    6 < (0x07 : Byte).toNat ∧ 6 < (0xFF : Byte).toNat ∧ (Instr.illegalZ7 0x80).wf = true ∧ (Instr.illegalZ6 0x7F).wf = true ∧
      (Instr.illegalZ5 0x20).wf = true ∧ (Instr.illegalZ4 0x1F).wf = true ∧ (Instr.illegalZ3 0x08).wf = true := by decide

/-- Both values of FSLOT with an offset at each end of the clauses' ranges. -/
theorem witness_FilterCommandsKeepEverythingElse :
    ((0x27 : Offset).toNat ≠ 0x01 ∧ ¬(0x28 ≤ (0x27 : Offset).toNat ∧ (0x27 : Offset).toNat ≤ 0x2F)) ∧
    ((0x30 : Offset).toNat ≠ 0x01 ∧ ¬(0x28 ≤ (0x30 : Offset).toNat ∧ (0x30 : Offset).toNat ≤ 0x2F)) ∧
    ((machine (Regs.reset.withSlots oneSlot) []).regs.slots.fslot = true ∧ 0x28 ≤ (0x28 : Offset).toNat ∧ (0x2B : Offset).toNat ≤ 0x2B) ∧
    (State.reset.regs.slots.fslot = false ∧ 0x2C ≤ (0x2C : Offset).toNat ∧ (0x2F : Offset).toNat ≤ 0x2F) := by decide

theorem witness_ReservedIdentifiersMatchNothing :
    (machine ((received 0x7FD 0).withSlots twoSlots) []).regs.Inv ∧
      (machine ((received 0x7FD 0).withSlots twoSlots) []).regs.operands.inId.getLsbD 2 = true := by
  unfold Regs.Inv SlotFile.Inv Slot.Inv; decide

/-- An empty slot file and a defined type: the strict, the first-bit and the counting law. -/
theorem witness_single_filter_laws :
    (machine (header 0xFF 3 true) []).regs.slots = State.reset.regs.slots ∧
      (machine (header 0xFF 3 true) []).regs.operands.inType.toNat ≤ 3 := by decide

/-- Two slots under the first-bit mask whose filters differ in bits 9:3 only. -/
theorem witness_UncomparedFilterBitsTakeNoPart :
    let a : Slot := { valid := true, filter := 0x429, mask := 0x407 }
    let b : Slot := { valid := true, filter := 0x7F9, mask := 0x407 }
    a.mask = 0x407 ∧ b.mask = 0x407 ∧ a.valid = b.valid ∧ a ≠ b ∧
      ∀ k < 11, k < 3 ∨ k = 10 → a.filter.getLsbD k = b.filter.getLsbD k := by decide

theorem witness_ThreeFilterCommandsLeaveFirstAndThird :
    State.reset.resetAsserted = false ∧ State.reset.regs.slots = State.reset.regs.slots ∧ (0 : TypeBits).toNat ≤ 3 ∧
      (2 : TypeBits).toNat ≤ 3 ∧ (3 : TypeBits).toNat ≤ 3 := by decide

/-- Registers that are not the reset ones, with the slot file INIT leaves. -/
theorem witness_InitClearsTheSlotFile :
    ∃ t, exec .init (machine (header 0x05 2 false) []) = .next t ∧ (header 0xFF 3 true).slots = t.regs.slots ∧
      header 0xFF 3 true ≠ t.regs := ⟨_, rfl, rfl, by decide⟩

theorem witness_EmptySlotsAcceptNothing : Regs.reset.slots = State.reset.regs.slots := rfl

/-- FSTRICT as the access a query overlaps. -/
theorem witness_OverlappingQuerySeesBeforeOrAfter :
    ∃ u, step { State.reset with inputs := .host (.write 0x00 [0x04]) :: [] } = .next u ∧ u.regs.slots ≠ State.reset.regs.slots :=
  ⟨_, rfl, by decide⟩

theorem witness_EveryStepKeepsTheInvariant :
    ∃ t, (machine (Regs.reset.withSlots twoSlots) [.host (.write 0x00 [0x03])]).Inv ∧
      step (machine (Regs.reset.withSlots twoSlots) [.host (.write 0x00 [0x03])]) = .next t :=
  ⟨_, by unfold State.Inv Regs.Inv SlotFile.Inv Slot.Inv; decide, rfl⟩

/-- A step that changes each register group: the operands, the frame, the message, MRES, the slot file, the error bits. -/
theorem witness_EachRegisterGroupHasItsOnlyWriters :
    (regsAfter (step (machine Regs.reset [.host (.write 0x04 [0x05])]))).any (fun r => r.operands != Regs.reset.operands) = true ∧
    (afterCommand 0x01 (header 0x05 2 false)).any (fun r => r.frame != Regs.reset.frame) = true ∧
    (afterCommand 0x02 (received 0x42A 0)).any (fun r => r.message != Regs.reset.message) = true ∧
    (afterCommand 0x06 ((received 0x429 0).withSlots twoSlots)).any (fun r => r.mres != Regs.reset.mres) = true ∧
    (afterCommand 0x04 Regs.reset).any (fun r => r.slots != Regs.reset.slots) = true ∧
    (afterCommand 0x07 Regs.reset).any (fun r => r.status != Regs.reset.status) = true := by decide

/-- A program that enters sequence 0 again inside sequence 1's place, and one that does not. -/
theorem witness_InterleavedProgramsAreRefused :
    isRefusal .interleavedSequences (loadProgram [⟨⟨0, 0⟩, lineWr .inNode 1⟩, ⟨⟨0, 1⟩, lineCmd .nop⟩, ⟨⟨0, 0⟩, lineCmd .enc⟩] State.reset) = true ∧
      (regsAfter (loadProgram [⟨⟨0, 0⟩, lineWr .inNode 1⟩, ⟨⟨0, 0⟩, lineCmd .enc⟩, ⟨⟨0, 1⟩, lineCmd .nop⟩] State.reset)).isSome = true := by decide

/-- A course of events in which a handler run stands inside the foreground's sequence, and a program without any. -/
theorem witness_ProgramsAHandlerCanDisturbAreRefused :
    (∃ events, Spec.entersAgain (hostOrder { foreground := { masked := false, ops := encodeOps }, handlers := [matchHandler] } events)) ∧
      ¬ ∃ events, Spec.entersAgain (hostOrder { foreground := { masked := true, ops := [] }, handlers := [] } events) := by
  refine ⟨⟨[.go, .interrupt 0, .go, .go, .go, .go, .go], 0, 1, 4, _, _, _, by decide, by decide, rfl, rfl, rfl, by decide, by decide⟩, ?_⟩
  have h : ∀ (p : HostProgram) (r : HostRun), r.running.code = { masked := true, ops := [] } → r.below = [] →
      ∀ events, r.order p events = [] := by
    intro p r hc hb events
    induction events with
    | nil => rfl
    | cons e events ih =>
      cases e <;> simpa [HostRun.order, HostRun.made, HostRun.after, HostRun.go, HostRun.interrupt, hc, hb] using ih
  rintro ⟨events, i, _, _, _, _, _, _, _, ha, _⟩
  rw [hostOrder, h _ _ rfl rfl] at ha
  simp at ha

theorem witness_SendLeavesTheFrameOfTheMessage :
    State.reset.resetAsserted = false ∧ State.reset.noError ∧ (0x03 : Byte).toNat % 8 ≤ 3 ∧ (0xF8 : Byte).toNat % 8 ≤ 3 := by
  unfold State.noError; decide

end Sys2Proof.Tests
end

section
/-! Proofs of the statements on the scope of the CFC (00_scope.md): where the window stands, which accesses by address reach it and with what
width, and what the operand functions and the message types are as numbers. -/

namespace Sys2Proof.Machine

/-! ### The window and accesses by address -/

/-- The window decodes exactly the address of each offset. -/
theorem windowOffset_eq_some_iff {base addr : Nat} {off : Offset} :
    windowOffset base addr = some off ↔ addr = base + off.toNat := by
  unfold windowOffset windowBytes
  constructor
  · intro h
    split at h
    · obtain rfl := Option.some.inj h
      rw [BitVec.toNat_ofNat]
      omega
    · cases h
  · rintro rfl
    have hlt := off.isLt
    rw [if_pos (by omega), Nat.add_sub_cancel_left, BitVec.ofNat_toNat, BitVec.setWidth_eq]

/-- The addresses outside the window are those below its first byte and above its last. -/
theorem windowOffset_eq_none_iff {base addr : Nat} :
    windowOffset base addr = none ↔ addr < base ∨ base + 0x3F < addr := by
  unfold windowOffset windowBytes
  split
  · exact iff_of_false (Option.some_ne_none _) (by omega)
  · exact iff_of_true rfl (by omega)

/-- An access with a byte in the window reaches some offset. -/
theorem exists_busOffset_of_touchesWindow {base addr width : Nat} (h : Spec.touchesWindow base addr width) :
    ∃ off, busOffset base addr width = some off := by
  have ⟨k, hk, _⟩ := h
  exact Option.isSome_iff_exists.1 ((busOffset_isSome (Nat.zero_lt_of_lt hk)).2 h)

/-- An access of at least one byte, none of them in the window, reaches no offset. -/
theorem busOffset_eq_none_of_not_touchesWindow {base addr width : Nat} (hw : 0 < width)
    (h : ¬ Spec.touchesWindow base addr width) : busOffset base addr width = none :=
  Option.not_isSome_iff_eq_none.1 (mt (busOffset_isSome hw).1 h)

/-- A read that reaches the window is one act, of the read's own width. -/
theorem busInputs_memRead_of_some {base addr width : Nat} {off : Offset} (p : List BusAccess)
    (h : busOffset base addr width = some off) :
    busInputs base (.memRead addr width :: p) = .host (.read off width) :: busInputs base p := by
  simp [busInputs, hostInputs, busSelect, h]

/-- A write that reaches the window is one act, of the write's own bytes. -/
theorem busInputs_memWrite_of_some {base addr : Nat} {data : List Byte} {off : Offset} (p : List BusAccess)
    (h : busOffset base addr data.length = some off) :
    busInputs base (.memWrite addr data :: p) = .host (.write off data) :: busInputs base p := by
  simp [busInputs, hostInputs, busSelect, h]

/-- A read that does not reach the window is no act. -/
theorem busInputs_memRead_of_none {base addr width : Nat} (p : List BusAccess) (h : busOffset base addr width = none) :
    busInputs base (.memRead addr width :: p) = busInputs base p := by
  simp [busInputs, busSelect, h]

/-- A write that does not reach the window is no act. -/
theorem busInputs_memWrite_of_none {base addr : Nat} {data : List Byte} (p : List BusAccess)
    (h : busOffset base addr data.length = none) :
    busInputs base (.memWrite addr data :: p) = busInputs base p := by
  simp [busInputs, busSelect, h]

/-- Settles O15: each clause is one of the laws of `windowOffset`, `busOffset` and `busInputs`. -/
theorem windowStandsAtTheBase : Obligations.WindowStandsAtTheBase := by
  intro base
  refine ⟨fun off => windowOffset_eq_some_iff.2 rfl, fun addr => windowOffset_eq_none_iff.2,
    fun addr off => windowOffset_eq_some_iff.1, fun off v p => ⟨?_, ?_⟩, fun addr width data p => ⟨?_, ?_⟩⟩
  · exact busInputs_memRead_of_some p (busOffset_one base off)
  · exact busInputs_memWrite_of_some p (busOffset_one base off)
  · exact fun hw hout => busInputs_memRead_of_none p (busOffset_eq_none_of_not_touchesWindow hw hout)
  · exact fun hw hout => busInputs_memWrite_of_none p (busOffset_eq_none_of_not_touchesWindow hw hout)

/-! ### Accesses that are not one byte wide -/

/-- Out of reset, a read whose width is not one byte is refused (20_memory.md R53). -/
theorem hostAccess_read_wide (off : Offset) {width : Nat} {s : State} (hs : s.resetAsserted = false) (hw : width ≠ 1) :
    hostAccess (.read off width) s = .refused .accessWidth := by
  simp [hostAccess, hostRead, hs, hw]

/-- Out of reset, a write whose number of bytes is not one is refused (20_memory.md R53). -/
theorem hostAccess_write_wide (off : Offset) {data : List Byte} {s : State} (hs : s.resetAsserted = false)
    (hd : data.length ≠ 1) : hostAccess (.write off data) s = .refused .accessWidth := by
  match data, hd with
  | [], _ => simp [hostAccess, hostWrite, hs]
  | [_], hd => exact absurd rfl hd
  | _ :: _ :: _, _ => simp [hostAccess, hostWrite, hs]

/-- Settles O54: the access reaches the host interface with its whole width, which is where it is refused. -/
theorem wideAccessesIntoTheWindowAreRefused : Obligations.WideAccessesIntoTheWindowAreRefused := by
  intro base addr width data s rest hs
  constructor
  · intro hw htouch
    obtain ⟨off, hoff⟩ := exists_busOffset_of_touchesWindow htouch
    rw [busInputs_memRead_of_some [] hoff]
    exact (step_host s _ rest).trans (hostAccess_read_wide off hs hw)
  · intro hd htouch
    obtain ⟨off, hoff⟩ := exists_busOffset_of_touchesWindow htouch
    rw [busInputs_memWrite_of_some [] hoff]
    exact (step_host s _ rest).trans (hostAccess_write_wide off hs hd)

/-! ### Identifiers and message types -/

/-- The sum form of EncodeId (30_encoding.md R75): the type lies below the shifted node, so `|` is `+`. -/
theorem encodeId_toNat (n : Byte) (t : TypeBits) : (encodeId n t).toNat = 8 * n.toNat + t.toNat := by
  have hn := n.isLt
  have ht := t.isLt
  have hor : n.toNat <<< 3 ||| t.toNat = n.toNat <<< 3 + t.toNat := (Nat.shiftLeft_add_eq_or_of_lt ht n.toNat).symm
  have hshift : n.toNat <<< 3 = 8 * n.toNat := by rw [Nat.shiftLeft_eq, Nat.mul_comm]
  rw [encodeId, BitVec.toNat_or, BitVec.toNat_shiftLeft, BitVec.toNat_setWidth, BitVec.toNat_setWidth,
    Nat.mod_eq_of_lt (show n.toNat < 2 ^ 11 by omega), Nat.mod_eq_of_lt (show t.toNat < 2 ^ 11 by omega),
    Nat.mod_eq_of_lt (show n.toNat <<< 3 < 2 ^ 11 by omega), hor, hshift]

/-- Settles O22: the bits, the sum form and the two inverses are the laws of `encodeId`. -/
theorem headerBitsAreDisjoint : Obligations.HeaderBitsAreDisjoint := fun n t =>
  ⟨fun k _ => encodeId_getLsbD n t k, encodeId_toNat n t, nodeOf_encodeId n t, typeOf_encodeId n t⟩

/-- A named message type is read back from its number. -/
@[simp] theorem messageTypeOf_messageTypeBits (m : MessageType) : messageTypeOf (messageTypeBits m) = some m := by
  cases m <;> rfl

/-- The patterns without a name are 4 to 7. -/
theorem messageTypeOf_eq_none_iff (t : TypeBits) : messageTypeOf t = none ↔ 4 ≤ t.toNat := by
  revert t; decide

/-- Settles O28: the names by their numbers, the patterns without a name, and IsReservedType, which are the same patterns. -/
theorem messageTypesAreZeroToThree : Obligations.MessageTypesAreZeroToThree :=
  ⟨rfl, rfl, rfl, rfl, messageTypeOf_messageTypeBits, fun t => ⟨messageTypeOf_eq_none_iff t, isReservedType_iff t⟩⟩

end Sys2Proof.Machine
end

section
/-! What an act does to the registers: one command, one write to the window, one host access, one step. Later proofs ask here which registers
an act can change, and do not unfold it. -/

namespace Sys2Proof.Machine

/-! ### One command -/

/-- The registers ENC leaves (R91). -/
def encRegs (r : Regs) : Regs :=
  if isReservedType r.operands.inType then r.withStatus (typeStatus r.operands.inType)
  else (r.withFrame (encodeFrame r.operands)).withStatus (typeStatus r.operands.inType)

/-- The registers a command leaves. -/
def commandRegs : Instr → Regs → Regs
  | .nop, r => r.withStatus okStatus
  | .enc, r => encRegs r
  | .dec, r => (r.withMessage (decodeMessage r.operands)).withStatus (typeStatus (typeOf r.operands.inId))
  | .init, r => ((r.withSlots SlotFile.reset).withMres MatchResult.reset).withStatus okStatus
  | .fstrict, r => filterRegs strictMask r
  | .ffirst, r => filterRegs firstBitMask r
  | .matchIdent, r => (r.withMres (matchResult r.slots r.operands.inId)).withStatus okStatus
  | _, r => r.withStatus illegalStatus

/-- Every command goes on and changes the registers alone, as `commandRegs` says. -/
theorem exec_eq_next (i : Instr) (s : State) : exec i s = .next (s.withRegs (commandRegs i s.regs)) := by
  cases i with
  | enc =>
    show execEnc s = .next (s.withRegs (encRegs s.regs))
    unfold execEnc encRegs
    split <;> rfl
  | _ => rfl

/-- The frame after ENC: that of a rejected type stays (R91). -/
theorem encRegs_frame (r : Regs) :
    (encRegs r).frame = if isReservedType r.operands.inType then r.frame else encodeFrame r.operands := by
  unfold encRegs
  split <;> rfl

/-- ENC reports the type it used, on both its branches (R150). -/
theorem encRegs_status (r : Regs) : (encRegs r).status = typeStatus r.operands.inType := by
  unfold encRegs
  split <;> rfl

/-- The register groups ENC never writes. -/
theorem encRegs_keeps (r : Regs) :
    (encRegs r).operands = r.operands ∧ (encRegs r).message = r.message ∧ (encRegs r).mres = r.mres ∧
      (encRegs r).slots = r.slots := by
  unfold encRegs
  split <;> exact ⟨rfl, rfl, rfl, rfl⟩

/-- A filter command reports the type it used, on both its branches (R150). -/
theorem filterRegs_status (m : Ident) (r : Regs) : (filterRegs m r).status = typeStatus r.operands.inType := by
  unfold filterRegs
  split <;> rfl

/-- No command writes an operand (R26 to R30). -/
@[simp] theorem commandRegs_operands (i : Instr) (r : Regs) : (commandRegs i r).operands = r.operands := by
  cases i with
  | enc => simp [commandRegs, encRegs_keeps]
  | fstrict => simp [commandRegs, filterRegs_frame]
  | ffirst => simp [commandRegs, filterRegs_frame]
  | _ => rfl

/-- ENC alone writes the frame (R31, R32). -/
theorem commandRegs_frame {i : Instr} (h : i ≠ .enc) (r : Regs) : (commandRegs i r).frame = r.frame := by
  cases i with
  | enc => exact absurd rfl h
  | fstrict => simp [commandRegs, filterRegs_frame]
  | ffirst => simp [commandRegs, filterRegs_frame]
  | _ => rfl

/-- DEC alone writes the message (R33, R34). -/
theorem commandRegs_message {i : Instr} (h : i ≠ .dec) (r : Regs) : (commandRegs i r).message = r.message := by
  cases i with
  | dec => exact absurd rfl h
  | enc => simp [commandRegs, encRegs_keeps]
  | fstrict => simp [commandRegs, filterRegs_frame]
  | ffirst => simp [commandRegs, filterRegs_frame]
  | _ => rfl

/-- MATCH and INIT alone write MRES (R25). -/
theorem commandRegs_mres {i : Instr} (hm : i ≠ .matchIdent) (hi : i ≠ .init) (r : Regs) :
    (commandRegs i r).mres = r.mres := by
  cases i with
  | matchIdent => exact absurd rfl hm
  | init => exact absurd rfl hi
  | enc => simp [commandRegs, encRegs_keeps]
  | fstrict => simp [commandRegs, filterRegs_frame]
  | ffirst => simp [commandRegs, filterRegs_frame]
  | _ => rfl

/-- FSTRICT, FFIRST and INIT alone write the slot file (R35). -/
theorem commandRegs_slots {i : Instr} (hs : i ≠ .fstrict) (hf : i ≠ .ffirst) (hi : i ≠ .init) (r : Regs) :
    (commandRegs i r).slots = r.slots := by
  cases i with
  | fstrict => exact absurd rfl hs
  | ffirst => exact absurd rfl hf
  | init => exact absurd rfl hi
  | enc => simp [commandRegs, encRegs_keeps]
  | _ => rfl

/-- Decoding loses no bit of the CMD byte. -/
theorem encode_decode (v : Byte) : encode (decode v) = v := by
  revert v; decide

/-- A byte that decodes to a command is the command's byte. -/
theorem eq_encode_of_decode {v : Byte} {i : Instr} (h : decode v = i) : v = encode i := by
  rw [← h, encode_decode]

/-! ### One write to the window -/

/-- The bits of an operand register that hold what the host writes (R26 to R30); none where the host cannot write. -/
def operandBits : Reg → Option Byte
  | .inNode => some 0xFF
  | .inType => some 0x07
  | .inSw => some 0x01
  | .inIdl => some 0xFF
  | .inIdh => some 0x07
  | .inD _ => some 0xFF
  | _ => none

/-- The bits at an offset that hold what the host writes; none at a read-only or reserved offset, and at CMD. -/
def writableBits (off : Offset) : Option Byte := (regAt off).bind operandBits

/-- A register that is no operand ignores a write (R52). -/
theorem writeOperand_of_operandBits_none {reg : Reg} (h : operandBits reg = none) (o : Operands) (v : Byte) :
    writeOperand o v reg = o := by
  cases reg with
  | inNode => cases h
  | inType => cases h
  | inSw => cases h
  | inIdl => cases h
  | inIdh => cases h
  | inD i => cases h
  | _ => rfl

/-- The three bits of a type register read back. -/
theorem typeByte_extractLsb' (v : Byte) : typeByte (v.extractLsb' 0 3) = v &&& 0x07 := by
  revert v; decide

/-- The one bit of a switch register reads back. -/
theorem bitByte_getLsbD_zero (v : Byte) : bitByte (v.getLsbD 0) = v &&& 0x01 := by
  revert v; decide

/-- A write keeps every register but the one written: IN_IDL and IN_IDH share a field, and each keeps the other's bits (R29). -/
theorem readReg_writeOperand_ne {reg other : Reg} (h : other ≠ reg) (r : Regs) (v : Byte) :
    readReg (r.withOperands (writeOperand r.operands v reg)) other = readReg r other := by
  cases other with
  | inNode => cases reg with
    | inNode => exact absurd rfl h
    | _ => rfl
  | inType => cases reg with
    | inType => exact absurd rfl h
    | _ => rfl
  | inSw => cases reg with
    | inSw => exact absurd rfl h
    | _ => rfl
  | inIdl => cases reg with
    | inIdl => exact absurd rfl h
    | inIdh => exact lowByte_setHighBits _ v
    | _ => rfl
  | inIdh => cases reg with
    | inIdh => exact absurd rfl h
    | inIdl => exact highByte_setLowByte _ v
    | _ => rfl
  | inD j => cases reg with
    | inD i =>
      have hij : i.val ≠ j.val := fun e => h (congrArg Reg.inD (Fin.ext e.symm))
      exact Vector.getElem_set_ne i.isLt j.isLt hij
    | _ => rfl
  | _ => rfl

/-- An operand register reads back the bits it holds of what was written (R26 to R30). -/
theorem readReg_writeOperand_same {reg : Reg} {m : Byte} (h : operandBits reg = some m) (r : Regs) (v : Byte) :
    readReg (r.withOperands (writeOperand r.operands v reg)) reg = v &&& m := by
  have hall : v &&& 0xFF = v := BitVec.and_allOnes
  cases reg with
  | inNode => cases h; exact hall.symm
  | inType => cases h; exact typeByte_extractLsb' v
  | inSw => cases h; exact bitByte_getLsbD_zero v
  | inIdl => cases h; exact (lowByte_setLowByte _ v).trans hall.symm
  | inIdh => cases h; exact highByte_setHighBits _ v
  | inD i => cases h; exact (Vector.getElem_set_self i.isLt).trans hall.symm
  | _ => cases h

/-- An offset without writable bits ignores a write (R52). -/
theorem writeByte_of_writableBits_none {off : Offset} (h : writableBits off = none) (r : Regs) (v : Byte) :
    writeByte r off v = r := by
  unfold writableBits at h
  cases hreg : regAt off with
  | none => simp [writeByte, hreg]
  | some reg =>
    have hbits : operandBits reg = none := by simpa [hreg] using h
    simp [writeByte, hreg, writeOperand_of_operandBits_none hbits, Regs.withOperands]

/-- The offsets with writable bits are those of the operand registers (R22). -/
theorem operandOffset_of_writableBits (off : Offset) (h : writableBits off ≠ none) :
    off.toNat ∈ [0x04, 0x05, 0x06, 0x08, 0x09] ∨ 0x10 ≤ off.toNat ∧ off.toNat ≤ 0x17 := by
  revert off; decide

/-- A write leaves the byte at every other offset. -/
theorem readByte_writeByte_ne {off other : Offset} (h : other ≠ off) (r : Regs) (v : Byte) :
    readByte (writeByte r off v) other = readByte r other := by
  cases hreg : regAt off with
  | none => simp [writeByte, hreg]
  | some reg =>
    cases hother : regAt other with
    | none => rw [readByte_reserved _ hother, readByte_reserved _ hother]
    | some reg' =>
      obtain rfl := eq_regOffset_of_regAt hreg
      obtain rfl := eq_regOffset_of_regAt hother
      have hne : reg' ≠ reg := fun e => h (congrArg regOffset e)
      simp [writeByte, readReg_writeOperand_ne hne]

/-- The byte at the offset written is the written one's writable bits. -/
theorem readByte_writeByte_same {off : Offset} {m : Byte} (h : writableBits off = some m) (r : Regs) (v : Byte) :
    readByte (writeByte r off v) off = v &&& m := by
  obtain ⟨reg, hreg, hbits⟩ := Option.bind_eq_some_iff.1 h
  obtain rfl := eq_regOffset_of_regAt hreg
  simp [writeByte, readReg_writeOperand_same hbits]

/-! ### One host access -/

/-- What a host access that goes on does to the registers: a read nothing, a write to CMD the command, any other write its operand. -/
inductive RegsAfterAccess (r : Regs) : HostAccess → Regs → Prop
  | read (off : Offset) : RegsAfterAccess r (.read off 1) r
  | command (v : Byte) : RegsAfterAccess r (.write 0x00 [v]) (commandRegs (decode v) r)
  | write (off : Offset) (v : Byte) : RegsAfterAccess r (.write off [v]) (writeByte r off v)

/-- A host access that goes on leaves the reset input released and does to the registers what `RegsAfterAccess` lists. -/
theorem regsAfterAccess_of_hostAccess {a : HostAccess} {s t : State} (h : hostAccess a s = .next t) :
    t.resetAsserted = false ∧ RegsAfterAccess s.regs a t.regs := by
  obtain ⟨hs, ⟨off, rfl, rfl⟩ | ⟨v, rfl, hx⟩ | ⟨off, v, rfl, -, rfl⟩⟩ := hostAccess_next h
  · exact ⟨hs, .read off⟩
  · obtain rfl := Host.Outcome.next.inj ((exec_eq_next (decode v) s).symm.trans hx)
    exact ⟨hs, .command v⟩
  · exact ⟨hs, .write off v⟩

section Writers
variable {r r' : Regs} {a : HostAccess}

/-- An access that changes an operand is a write to an operand register. -/
theorem RegsAfterAccess.operands_writer (h : RegsAfterAccess r a r') (hne : r'.operands ≠ r.operands) :
    ∃ off v, (off.toNat ∈ [0x04, 0x05, 0x06, 0x08, 0x09] ∨ 0x10 ≤ off.toNat ∧ off.toNat ≤ 0x17) ∧ a = .write off [v] := by
  cases h with
  | read off => exact absurd rfl hne
  | command v => exact absurd (commandRegs_operands _ r) hne
  | write off v =>
    refine ⟨off, v, operandOffset_of_writableBits off fun hnone => hne ?_, rfl⟩
    rw [writeByte_of_writableBits_none hnone]

/-- An access that changes anything but the operands is a write to CMD. -/
theorem RegsAfterAccess.command_of_ne {α : Type} (h : RegsAfterAccess r a r') (group : Regs → α)
    (hgroup : ∀ o, group (r.withOperands o) = group r) (hne : group r' ≠ group r) :
    ∃ v, a = .write 0x00 [v] ∧ r' = commandRegs (decode v) r := by
  cases h with
  | read off => exact absurd rfl hne
  | command v => exact ⟨v, rfl, rfl⟩
  | write off v =>
    obtain ⟨o, ho⟩ := writeByte_eq_withOperands r off v
    exact absurd (ho ▸ hgroup o) hne

/-- An access that changes the frame is the write of ENC. -/
theorem RegsAfterAccess.frame_writer (h : RegsAfterAccess r a r') (hne : r'.frame ≠ r.frame) : a = .write 0x00 [0x01] := by
  obtain ⟨v, rfl, rfl⟩ := h.command_of_ne Regs.frame (fun _ => rfl) hne
  have hi : decode v = .enc := by
    by_contra hi
    exact hne (commandRegs_frame hi r)
  rw [eq_encode_of_decode hi, encode]

/-- An access that changes the message is the write of DEC. -/
theorem RegsAfterAccess.message_writer (h : RegsAfterAccess r a r') (hne : r'.message ≠ r.message) :
    a = .write 0x00 [0x02] := by
  obtain ⟨v, rfl, rfl⟩ := h.command_of_ne Regs.message (fun _ => rfl) hne
  have hi : decode v = .dec := by
    by_contra hi
    exact hne (commandRegs_message hi r)
  rw [eq_encode_of_decode hi, encode]

/-- An access that changes MRES is the write of MATCH or of INIT. -/
theorem RegsAfterAccess.mres_writer (h : RegsAfterAccess r a r') (hne : r'.mres ≠ r.mres) :
    a = .write 0x00 [0x06] ∨ a = .write 0x00 [0x03] := by
  obtain ⟨v, rfl, rfl⟩ := h.command_of_ne Regs.mres (fun _ => rfl) hne
  by_cases hm : decode v = .matchIdent
  · exact .inl (by rw [eq_encode_of_decode hm, encode])
  · by_cases hi : decode v = .init
    · exact .inr (by rw [eq_encode_of_decode hi, encode])
    · exact absurd (commandRegs_mres hm hi r) hne

/-- An access that changes the slot file is the write of FSTRICT, of FFIRST or of INIT. -/
theorem RegsAfterAccess.slots_writer (h : RegsAfterAccess r a r') (hne : r'.slots ≠ r.slots) :
    a = .write 0x00 [0x04] ∨ a = .write 0x00 [0x05] ∨ a = .write 0x00 [0x03] := by
  obtain ⟨v, rfl, rfl⟩ := h.command_of_ne Regs.slots (fun _ => rfl) hne
  by_cases hs : decode v = .fstrict
  · exact .inl (by rw [eq_encode_of_decode hs, encode])
  · by_cases hf : decode v = .ffirst
    · exact .inr (.inl (by rw [eq_encode_of_decode hf, encode]))
    · by_cases hi : decode v = .init
      · exact .inr (.inr (by rw [eq_encode_of_decode hi, encode]))
      · exact absurd (commandRegs_slots hs hf hi r) hne

end Writers

/-! ### One step -/

/-- The act makes this host access, alone or with a query overlapping it. -/
def makesAccess (i : Input) (a : HostAccess) : Prop := i = .host a ∨ ∃ f, i = .overlap a f

/-- A step whose next act is `i` performs it on the state without it. -/
theorem step_of_inputs_cons {s : State} {i : Input} {rest : List Input} (h : s.inputs = i :: rest) :
    step s = perform i (s.withInputs rest) := by
  simp [step, performNext, h]

/-- What a step that goes on does to the registers: nothing, with the reset input kept (no act, a query, the pin released while released); a
host access; or the reset values. -/
theorem step_regs_cases {s t : State} (h : step s = .next t) :
    (t.regs = s.regs ∧ t.resetAsserted = s.resetAsserted) ∨
    (∃ i rest a, s.inputs = i :: rest ∧ makesAccess i a ∧ t.resetAsserted = false ∧ RegsAfterAccess s.regs a t.regs) ∨
    (∃ level rest, s.inputs = .resetPin level :: rest ∧ t.regs = Regs.reset) := by
  obtain ⟨-, rfl⟩ | ⟨a, rest, hin, ha⟩ | ⟨rxId, rest, -, rfl⟩ | ⟨a, rxId, rest, u, hin, ha, rfl⟩ | ⟨level, rest, hin, rfl⟩ :=
    step_cases h
  · exact .inl ⟨rfl, rfl⟩
  · have hafter := regsAfterAccess_of_hostAccess ha
    exact .inr (.inl ⟨_, rest, a, hin, .inl rfl, hafter⟩)
  · exact .inl ⟨rfl, rfl⟩
  · have hafter := regsAfterAccess_of_hostAccess ha
    exact .inr (.inl ⟨_, rest, a, hin, .inr ⟨_, rfl⟩, hafter⟩)
  · unfold setResetPin
    split
    · exact .inr (.inr ⟨level, rest, hin, rfl⟩)
    · exact .inl ⟨rfl, rfl⟩

end Sys2Proof.Machine
end

section
/-! Proofs of the statements on the state of the CFC (10_state.md): who writes which registers, what the registers always satisfy, what a write
to the window does, and what the ports show. -/

namespace Sys2Proof.Machine

/-! ### The only writers -/

/-- Settles O50: a step changes registers by a host access or by reset, and each group names the accesses that change it. -/
theorem eachRegisterGroupHasItsOnlyWriters : Obligations.EachRegisterGroupHasItsOnlyWriters := by
  intro s t i rest hin hstep
  obtain ⟨hkept, -⟩ | ⟨j, rest', a, hin', hmakes, -, hacc⟩ | ⟨level, rest', hin', -⟩ := step_regs_cases hstep
  · simp [hkept]
  · obtain ⟨rfl, -⟩ := List.cons.inj (hin'.symm.trans hin)
    have hcmd {v : Byte} (hv : a = .write 0x00 [v]) : Spec.writesCmd j v :=
      (hv ▸ hmakes : makesAccess j (.write 0x00 [v]))
    refine ⟨fun hne => .inl ?_, fun hne => .inl (hcmd (hacc.frame_writer hne)),
      fun hne => .inl (hcmd (hacc.message_writer hne)), fun hne => ?_, fun hne => ?_, fun hne => .inl ?_⟩
    · obtain ⟨off, v, hoff, rfl⟩ := hacc.operands_writer hne
      exact ⟨off, v, hoff, hmakes⟩
    · exact (hacc.mres_writer hne).elim (.inl ∘ hcmd) (.inr ∘ .inl ∘ hcmd)
    · obtain hv | hv | hv := hacc.slots_writer hne
      · exact .inl (hcmd hv)
      · exact .inr (.inl (hcmd hv))
      · exact .inr (.inr (.inl (hcmd hv)))
    · obtain ⟨v, hv, -⟩ := hacc.command_of_ne Regs.status (fun _ => rfl) hne
      exact ⟨v, hcmd hv⟩
  · obtain ⟨rfl, -⟩ := List.cons.inj (hin'.symm.trans hin)
    have hreset : Spec.drivesReset (.resetPin level) := ⟨level, rfl⟩
    simp [hreset]

/-! ### The invariant -/

/-- What the registers' invariant says of the frame: one that ENC can have left (R32, R94). -/
def Frame.Inv (f : Frame) : Prop :=
  (f.outD[0] = 0x00 ∨ f.outD[0] = 0x01) ∧ f.outId.toNat ≤ 0x7FB ∧ (typeOf f.outId).toNat ≤ 3

/-- What the registers' invariant says of the error bits: at most one is set (R153). -/
def Status.Inv (st : Status) : Prop := ¬(st.terr = true ∧ st.cerr = true)

/-- The registers' invariant speaks of three groups, each by itself. -/
theorem Regs.inv_iff (r : Regs) : r.Inv ↔ r.slots.Inv ∧ r.frame.Inv ∧ r.status.Inv := by
  simp only [Regs.Inv, Frame.Inv, Status.Inv, typeOf, and_assoc]

/-- The reset values meet the invariant. -/
theorem Regs.reset_inv : Regs.reset.Inv := by
  unfold Regs.Inv SlotFile.Inv Slot.Inv
  decide

/-- The empty slot file meets R37. -/
theorem SlotFile.reset_inv : SlotFile.reset.Inv := ((Regs.inv_iff _).1 Regs.reset_inv).1

/-- A slot configured with one of the two masks and a filter of a defined type meets R37. -/
theorem configuredSlot_inv {f m : Ident} (hm : m = strictMask ∨ m = firstBitMask) (hf : (typeOf f).toNat ≤ 3) :
    (configuredSlot f m).Inv :=
  ⟨fun h => absurd h Bool.noConfusion, fun _ => ⟨hm, hf⟩⟩

/-- Slot placement keeps R37: slot 2 is configured only after slot 1. -/
theorem placeFilter_inv {sf : SlotFile} {f m : Ident} (h : sf.Inv) (hm : m = strictMask ∨ m = firstBitMask)
    (hf : (typeOf f).toNat ≤ 3) : (placeFilter sf f m).Inv := by
  obtain ⟨hfslot, -, hslot1, hslot2⟩ := h
  have hnew := configuredSlot_inv hm hf
  obtain ⟨-, he⟩ | ⟨hset, he⟩ := placeFilter_cases sf f m <;> rw [he]
  · exact ⟨rfl, fun _ => rfl, hnew, hslot2⟩
  · have hvalid : sf.slot1.valid = true := hfslot.symm.trans hset
    exact ⟨hvalid.symm, fun _ => hvalid, hslot1, hnew⟩

/-- A type that is not reserved is at most 3. -/
theorem toNat_le_of_not_reserved {t : TypeBits} (h : isReservedType t = false) : t.toNat ≤ 3 := by
  have hlt : ¬ 4 ≤ t.toNat := fun hle => by simp [(isReservedType_iff t).2 hle] at h
  omega

/-- A filter command keeps R37: it places a filter only where the type is defined. -/
theorem filterRegs_slots_inv {m : Ident} (hm : m = strictMask ∨ m = firstBitMask) {r : Regs} (h : r.slots.Inv) :
    (filterRegs m r).slots.Inv := by
  cases ht : isReservedType r.operands.inType with
  | true => simpa [filterRegs_reserved m ht] using h
  | false =>
    have hf : (typeOf (filterValue r.operands)).toNat ≤ 3 := by
      simpa [filterValue] using toNat_le_of_not_reserved ht
    simpa [filterRegs_accepted m ht] using placeFilter_inv h hm hf

/-- The frame ENC builds of a defined type meets the invariant (R94): 8 * 255 + 3 = 0x7FB. -/
theorem encodeFrame_inv {o : Operands} (h : isReservedType o.inType = false) : (encodeFrame o).Inv := by
  have ht := toNat_le_of_not_reserved h
  have hn := o.inNode.isLt
  refine ⟨?_, ?_, ?_⟩
  · cases hsw : o.inSw <;> simp [encodeFrame, framePayload, bitByte, hsw]
  · rw [encodeFrame, encodeId_toNat]
    omega
  · simpa [encodeFrame] using ht

/-- ENC keeps the frame's invariant: it writes a frame only where the type is defined. -/
theorem encRegs_frame_inv {r : Regs} (h : r.frame.Inv) : (encRegs r).frame.Inv := by
  rw [encRegs_frame]
  split
  next => exact h
  next hdefined => exact encodeFrame_inv (Bool.eq_false_of_not_eq_true hdefined)

/-- TERR alone, or no error. -/
theorem typeStatus_inv (t : TypeBits) : (typeStatus t).Inv := fun ⟨_, hc⟩ => Bool.noConfusion hc

/-- Every command leaves at most one error bit, whatever stood there (R150, R153). -/
theorem commandRegs_status_inv (i : Instr) (r : Regs) : (commandRegs i r).status.Inv := by
  cases i with
  | enc => exact encRegs_status r ▸ typeStatus_inv _
  | dec => exact typeStatus_inv _
  | fstrict => exact filterRegs_status strictMask r ▸ typeStatus_inv _
  | ffirst => exact filterRegs_status firstBitMask r ▸ typeStatus_inv _
  | _ => simp [commandRegs, Status.Inv, okStatus, illegalStatus]

/-- Every command keeps the invariant of the registers. -/
theorem commandRegs_inv (i : Instr) {r : Regs} (h : r.Inv) : (commandRegs i r).Inv := by
  rw [Regs.inv_iff] at h ⊢
  obtain ⟨hslots, hframe, -⟩ := h
  refine ⟨?_, ?_, commandRegs_status_inv i r⟩
  · cases i with
    | init => exact SlotFile.reset_inv
    | fstrict => exact filterRegs_slots_inv (.inl rfl) hslots
    | ffirst => exact filterRegs_slots_inv (.inr rfl) hslots
    | enc => simpa [commandRegs, encRegs_keeps] using hslots
    | _ => exact hslots
  · by_cases hi : i = .enc
    · subst hi
      exact encRegs_frame_inv hframe
    · rwa [commandRegs_frame hi]

/-- Every host access keeps the invariant of the registers, which says nothing of the operands. -/
theorem RegsAfterAccess.inv {r r' : Regs} {a : HostAccess} (hacc : RegsAfterAccess r a r') (h : r.Inv) : r'.Inv := by
  cases hacc with
  | read off => exact h
  | command v => exact commandRegs_inv (decode v) h
  | write off v =>
    obtain ⟨o, ho⟩ := writeByte_eq_withOperands r off v
    rw [ho]
    exact h

/-- Settles O48: a step keeps the registers, makes a host access outside reset, or sets the reset values. -/
theorem everyStepKeepsTheInvariant : Obligations.EveryStepKeepsTheInvariant := by
  rintro s t ⟨hregs, hreset⟩ hstep
  obtain ⟨hkept, hpin⟩ | ⟨_, _, _, -, -, hpin, hacc⟩ | ⟨_, _, -, hset⟩ := step_regs_cases hstep
  · exact ⟨hkept ▸ hregs, fun hasserted => hkept.trans (hreset (hpin ▸ hasserted))⟩
  · exact ⟨hacc.inv hregs, fun hasserted => by simp [hpin] at hasserted⟩
  · exact ⟨hset ▸ Regs.reset_inv, fun _ => hset⟩

/-- Settles O49: the registers are the reset ones. -/
theorem resetStateMeetsTheInvariant : Obligations.ResetStateMeetsTheInvariant := ⟨Regs.reset_inv, fun _ => rfl⟩

/-- Settles O16: each field, by its value. -/
theorem resetStateHoldsTheListedValues : Obligations.ResetStateHoldsTheListedValues := by
  unfold Obligations.ResetStateHoldsTheListedValues
  decide

/-- Settles O5: the first act is a host write to CMD. -/
theorem stepRunsTheDecodedCommand : Obligations.StepRunsTheDecodedCommand := by
  intro s v rest hs hin
  rw [step_of_inputs_cons hin]
  exact hostAccess_command v hs

/-! ### Writes to the window -/

/-- The registers whose eight bits are all held: IN_NODE, IN_IDL and the payload bytes. -/
theorem writableBits_of_whole (off : Offset)
    (h : off.toNat ∈ [0x04, 0x08, 0x10, 0x11, 0x12, 0x13, 0x14, 0x15, 0x16, 0x17]) : writableBits off = some 0xFF := by
  revert off; decide

/-- The registers that hold three bits: IN_TYPE and IN_IDH. -/
theorem writableBits_of_three (off : Offset) (h : off.toNat ∈ [0x05, 0x09]) : writableBits off = some 0x07 := by
  revert off; decide

/-- The register that holds one bit: IN_SW. -/
theorem writableBits_of_one (off : Offset) (h : off.toNat = 0x06) : writableBits off = some 0x01 := by
  revert off; decide

/-- Settles O12: the window's bytes by the read-after-write laws; the ports show no operand. -/
theorem operandWriteKeepsEveryOtherByte : Obligations.OperandWriteKeepsEveryOtherByte := by
  intro s off v rest hs hoff
  have hcmd : off ≠ 0x00 := fun h => hoff (h ▸ rfl)
  obtain ⟨o, ho⟩ := writeByte_eq_withOperands s.regs off v
  have hall : v &&& 0xFF = v := BitVec.and_allOnes
  refine ⟨(s.withInputs rest).withRegs (writeByte s.regs off v), (step_host s _ rest).trans (hostAccess_write v hs hcmd),
    fun other hne => readByte_writeByte_ne hne s.regs v,
    fun h => (readByte_writeByte_same (writableBits_of_whole off h) s.regs v).trans hall,
    fun h => readByte_writeByte_same (writableBits_of_three off h) s.regs v,
    fun h => readByte_writeByte_same (writableBits_of_one off h) s.regs v, ?_⟩
  rw [State.withRegs_regs, ho]
  exact ⟨rfl, rfl, rfl, fun _ => rfl⟩

/-- An identifier as a number after its low byte is set. -/
theorem setLowByte_toNat (x : Ident) (v : Byte) : (setLowByte x v).toNat = 256 * (x.toNat / 256) + v.toNat := by
  have hx := x.isLt
  have hv := v.isLt
  have hor (n : Nat) : n <<< 8 ||| v.toNat = n <<< 8 + v.toNat := (Nat.shiftLeft_add_eq_or_of_lt hv n).symm
  rw [setLowByte, BitVec.toNat_cast, BitVec.toNat_append, hor, BitVec.extractLsb'_toNat, Nat.shiftLeft_eq,
    Nat.shiftRight_eq_div_pow]
  omega

/-- An identifier as a number after its high part is set. -/
theorem setHighBits_toNat (x : Ident) (v : Byte) : (setHighBits x v).toNat = 256 * (v.toNat % 8) + x.toNat % 256 := by
  have hlow : (x.extractLsb' 0 8).toNat = x.toNat % 256 := by simp
  have hor (n : Nat) : n <<< 8 ||| x.toNat % 256 = n <<< 8 + x.toNat % 256 :=
    (Nat.shiftLeft_add_eq_or_of_lt (by omega) n).symm
  rw [setHighBits, BitVec.toNat_cast, BitVec.toNat_append, hlow, hor, BitVec.extractLsb'_toNat, Nat.shiftLeft_eq,
    Nat.shiftRight_zero]
  omega

/-- Settles O13: each write sets its own part of the number and keeps the other's. -/
theorem identifierBytesAreLittleEndian : Obligations.IdentifierBytesAreLittleEndian := by
  rintro ⟨r, _, _, hd, rx, n⟩ lo hi rfl
  have hlo := lo.isLt
  have h8 : (0x08 : Offset) ≠ 0x00 := by decide
  have h9 : (0x09 : Offset) ≠ 0x00 := by decide
  constructor
  · refine ⟨_, (run_write h8 1 r lo _ hd rx n).trans (run_write h9 0 _ hi [] hd rx n), ?_⟩
    show (setHighBits (setLowByte r.operands.inId lo) hi).toNat = _
    rw [setHighBits_toNat, setLowByte_toNat]
    omega
  · refine ⟨_, (run_write h9 1 r hi _ hd rx n).trans (run_write h8 0 _ lo [] hd rx n), ?_⟩
    show (setLowByte (setHighBits r.operands.inId hi) lo).toNat = _
    rw [setLowByte_toNat, setHighBits_toNat]
    omega

/-! ### Acceptance -/

/-- A slot's hit is R127 read bit by bit. -/
theorem slotHit_iff (sl : Slot) (ident : Ident) : slotHit sl ident = true ↔ Spec.slotAccepts sl ident := by
  rw [slotHit, Bool.and_eq_true, identMatches_iff, Spec.slotAccepts]

/-- The receive port accepts what one of the two slots accepts. -/
theorem rxPort_accept_iff (r : Regs) (ident : Ident) :
    (rxPort r ident).accept = true ↔ Spec.slotAccepts r.slots.slot1 ident ∨ Spec.slotAccepts r.slots.slot2 ident := by
  rw [← slotHit_iff, ← slotHit_iff]
  exact Bool.or_eq_true_iff

/-- Settles O47: the ports are the registers, and acceptance is that of the two slots they show. -/
theorem outputPortsShowTheRegisters : Obligations.OutputPortsShowTheRegisters :=
  fun r ident => ⟨rfl, rfl, rfl, rfl, rxPort_accept_iff r ident⟩

/-- Bit 2 of an identifier is the reserved bit of its type. -/
theorem isReservedType_typeOf (ident : Ident) : isReservedType (typeOf ident) = ident.getLsbD 2 := by
  simp [isReservedType, typeOf]

/-- A slot that meets R37 compares bit 2, where its filter is 0, so it hits no identifier with bit 2 set. -/
theorem slotHit_reserved {sl : Slot} (h : sl.Inv) {ident : Ident} (hid : ident.getLsbD 2 = true) :
    slotHit sl ident = false := by
  by_contra hhit
  obtain ⟨hvalid, hbits⟩ := (slotHit_iff sl ident).1 (by simpa using hhit)
  obtain ⟨hmask, htype⟩ := h.2 hvalid
  have hcompared : sl.mask.getLsbD 2 = true := by
    obtain h | h := hmask <;> rw [h] <;> rfl
  have hreserved : isReservedType (typeOf sl.filter) = true := by
    rw [isReservedType_typeOf, ← hbits 2 (by decide) hcompared, hid]
  have hle : 4 ≤ (typeOf sl.filter).toNat := (isReservedType_iff _).1 hreserved
  have hge : (typeOf sl.filter).toNat ≤ 3 := htype
  omega

/-- Settles O38: neither slot hits. -/
theorem reservedIdentifiersMatchNothing : Obligations.ReservedIdentifiersMatchNothing := by
  intro s hinv hid
  obtain ⟨⟨-, -, hslot1, hslot2⟩, -⟩ := hinv
  refine ⟨_, exec_eq_next .matchIdent s, ?_⟩
  simp [commandRegs, matchResult, accept, hit1, hit2, slotHit_reserved hslot1 hid, slotHit_reserved hslot2 hid]

end Sys2Proof.Machine
end

section
/-! Which acts go on and what an overlap does: a host access (20_memory.md R53), a query (42_filter.md R131), the two overlapping (20_memory.md
R59). Later proofs ask here how an act ends, and do not unfold it. -/

namespace Sys2Proof.Machine

/-! ### One host access -/

/-- During reset every host access is refused, whatever its width (70_reset_and_hazards.md R170). -/
theorem hostAccess_during_reset (a : HostAccess) {s : State} (hs : s.resetAsserted = true) :
    hostAccess a s = .refused .accessDuringReset := by
  simp [hostAccess, hs]

/-- Out of reset, an access that is not one byte wide is refused (R53). -/
theorem hostAccess_wide {a : HostAccess} {s : State} (hs : s.resetAsserted = false) (ha : ¬ Spec.oneByte a) :
    hostAccess a s = .refused .accessWidth := by
  cases a with
  | read off width => exact hostAccess_read_wide off hs ha
  | write off data => exact hostAccess_write_wide off hs ha

/-- A host access goes on exactly where it is one byte wide and out of reset. -/
theorem hostAccess_goesOn_iff (a : HostAccess) (s : State) :
    (∃ t, hostAccess a s = .next t) ↔ s.resetAsserted = false ∧ Spec.oneByte a := by
  constructor
  · rintro ⟨t, h⟩
    obtain ⟨hs, ⟨off, rfl, -⟩ | ⟨v, rfl, -⟩ | ⟨off, v, rfl, -⟩⟩ := hostAccess_next h
    · exact ⟨hs, rfl⟩
    · exact ⟨hs, rfl⟩
    · exact ⟨hs, rfl⟩
  · rintro ⟨hs, ha⟩
    cases a with
    | read off width =>
      obtain rfl : width = 1 := ha
      exact ⟨_, hostAccess_read off hs⟩
    | write off data =>
      obtain ⟨v, rfl⟩ := List.length_eq_one_iff.1 ha
      by_cases hoff : off = 0x00
      · subst hoff
        exact ⟨_, (hostAccess_command v hs).trans (exec_eq_next _ s)⟩
      · exact ⟨_, hostAccess_write v hs hoff⟩

/-- A host access leaves the acts to come and the reset input. -/
theorem hostAccess_keeps {a : HostAccess} {s t : State} (h : hostAccess a s = .next t) :
    t.inputs = s.inputs ∧ t.resetAsserted = s.resetAsserted := by
  obtain ⟨-, ⟨off, -, rfl⟩ | ⟨v, -, hx⟩ | ⟨off, v, -, -, rfl⟩⟩ := hostAccess_next h
  · exact ⟨rfl, rfl⟩
  · obtain rfl := Host.Outcome.next.inj ((exec_eq_next (decode v) s).symm.trans hx)
    exact ⟨rfl, rfl⟩
  · exact ⟨rfl, rfl⟩

/-! ### One query -/

/-- An extended or remote frame is refused, whatever registers the query would be judged against. -/
theorem answerQuery_nonstandard {f : RxFrame} (hf : ¬ Spec.standardFrame f) (judged : Regs) (s : State) :
    answerQuery f judged s = .refused .nonStandardFrame := by
  cases f with
  | standard rxId => exact absurd ⟨rxId, rfl⟩ hf
  | extended rxId => rfl
  | remote rxId => rfl

/-- A query goes on exactly for a standard frame. -/
theorem answerQuery_goesOn_iff (f : RxFrame) (judged : Regs) (s : State) :
    (∃ t, answerQuery f judged s = .next t) ↔ Spec.standardFrame f := by
  constructor
  · rintro ⟨t, h⟩
    obtain ⟨rxId, rfl, -⟩ := answerQuery_next h
    exact ⟨rxId, rfl⟩
  · rintro ⟨rxId, rfl⟩
    exact ⟨_, rfl⟩

/-! ### An access and a query overlapping -/

/-- Where the access goes on, the overlap is the query's answer on the access's state. -/
theorem overlapped_of_next {a : HostAccess} {s u : State} (h : hostAccess a s = .next u) (f : RxFrame) :
    overlapped a f s = answerQuery f (judgedRegs s.races s.regs u.regs) (u.withRaces (s.races + 1)) := by
  rw [overlapped, h]

/-- Where the access is refused, the overlap is refused by the same name. -/
theorem overlapped_of_refused {a : HostAccess} {s : State} {e : Refusal} (h : hostAccess a s = .refused e) (f : RxFrame) :
    overlapped a f s = .refused e := by
  rw [overlapped, h]

/-- An overlap goes on exactly where its access and its query do. -/
theorem overlapped_goesOn_iff (a : HostAccess) (f : RxFrame) (s : State) :
    (∃ t, overlapped a f s = .next t) ↔ s.resetAsserted = false ∧ Spec.oneByte a ∧ Spec.standardFrame f := by
  rw [← and_assoc, ← hostAccess_goesOn_iff]
  constructor
  · rintro ⟨t, h⟩
    obtain ⟨u, rxId, hu, rfl, -⟩ := overlapped_next h
    exact ⟨⟨u, hu⟩, rxId, rfl⟩
  · rintro ⟨⟨u, hu⟩, rxId, rfl⟩
    exact ⟨_, overlapped_of_next hu _⟩

/-- An overlapping query is judged against one of the two whole register files, for either free value (R59, R177). -/
theorem judgedRegs_cases (n : Nat) (before after : Regs) :
    judgedRegs n before after = before ∨ judgedRegs n before after = after := by
  unfold judgedRegs
  split
  · exact .inr rfl
  · exact .inl rfl

/-- With no act to come a step holds the state (60_exceptions.md R163). -/
theorem step_of_inputs_nil {s : State} (h : s.inputs = []) : step s = .next s := by
  simp [step, performNext, h]

end Sys2Proof.Machine
end

section
/-! The register window in the spec's own terms: the model's reads and writes agree with the tables of 10_state.md R22 and 20_memory.md R52
that the statements write out, register by register, and a write repeated changes nothing more. -/

namespace Sys2Proof.Machine

/-! ### Offsets -/

/-- The reserved ranges of the window (R22). -/
theorem toNat_of_regAt_none (off : Offset) (h : regAt off = none) :
    off.toNat = 0x03 ∨ off.toNat = 0x07 ∨ 0x0A ≤ off.toNat ∧ off.toNat ≤ 0x0F ∨ 0x1D ≤ off.toNat ∧ off.toNat ≤ 0x1F ∨
      0x30 ≤ off.toNat := by
  revert off; decide

/-- The payload operands stand in a row from 0x10 on. -/
theorem regOffset_inD_toNat (i : Fin 8) : (regOffset (.inD i)).toNat = 0x10 + i.val := by
  revert i; decide

/-- The payload results stand in a row from 0x20 on. -/
theorem regOffset_outD_toNat (i : Fin 8) : (regOffset (.outD i)).toNat = 0x20 + i.val := by
  revert i; decide

/-! ### Reads -/

/-- The table holds no bit at a reserved offset. -/
theorem windowBit_reserved (r : Regs) {off : Offset} (h : regAt off = none) (k : Nat) :
    Spec.windowBit r off.toNat k = false := by
  have hoff := toNat_of_regAt_none off h
  simp (disch := omega) only [Spec.windowBit, if_neg]

/-- The low byte holds bits 7:0 of the identifier. -/
theorem lowByte_getLsbD_of_lt (x : Ident) {k : Nat} (hk : k < 8) : (lowByte x).getLsbD k = x.getLsbD k := by
  rw [lowByte_getLsbD, decide_eq_true hk, Bool.true_and]

/-- The high byte holds bits 10:8 of the identifier, in its three low bits. -/
theorem highByte_getLsbD_eq_ite (x : Ident) (k : Nat) :
    (highByte x).getLsbD k = if k < 3 then x.getLsbD (8 + k) else false := by
  rw [highByte_getLsbD]
  split <;> simp [*]

/-- A three-bit register's byte holds the type in its three low bits. -/
theorem typeByte_getLsbD_eq_ite (t : TypeBits) (k : Nat) : (typeByte t).getLsbD k = if k < 3 then t.getLsbD k else false := by
  rw [typeByte_getLsbD]
  split
  · rfl
  · exact t.getLsbD_of_ge k (by omega)

/-- A one-bit register's byte holds the bit in bit 0. -/
theorem bitByte_getLsbD_eq_ite (b : Bool) (k : Nat) : (bitByte b).getLsbD k = if k = 0 then b else false := by
  rw [bitByte_getLsbD]
  split <;> simp [*]

/-- Each bit of a named register is the table's bit at the register's offset. -/
theorem readReg_getLsbD (r : Regs) (reg : Reg) {k : Nat} (hk : k < 8) :
    (readReg r reg).getLsbD k = Spec.windowBit r (regOffset reg).toNat k := by
  cases reg with
  | cmd => exact BitVec.getLsbD_zero
  | status =>
    rw [readReg, statusByte_getLsbD _ _ k hk]
    obtain _ | _ | _ | _ | _ | k := k <;> rfl
  | mres =>
    rw [readReg, mresByte_getLsbD _ k hk]
    obtain _ | _ | _ | k := k <;> rfl
  | inNode | outNode => rfl
  | inType | outType => exact typeByte_getLsbD_eq_ite _ k
  | inSw | outSw => exact bitByte_getLsbD_eq_ite _ k
  | inIdl | outIdl | f1l | m1l | f2l | m2l => exact lowByte_getLsbD_of_lt _ hk
  | inIdh | outIdh | f1h | m1h | f2h | m2h => exact highByte_getLsbD_eq_ite _ k
  | inD i =>
    have hi := i.isLt
    rw [regOffset_inD_toNat]
    simp (disch := omega) only [Spec.windowBit, if_neg, if_pos]
    simp [readReg]
  | outD i =>
    have hi := i.isLt
    rw [regOffset_outD_toNat]
    simp (disch := omega) only [Spec.windowBit, if_neg, if_pos]
    simp [readReg]

/-- Each bit of the byte the host reads is the table's bit, at named and reserved offsets. -/
theorem readByte_getLsbD (r : Regs) (off : Offset) {k : Nat} (hk : k < 8) :
    (readByte r off).getLsbD k = Spec.windowBit r off.toNat k := by
  cases hreg : regAt off with
  | none => rw [readByte_reserved r hreg, windowBit_reserved r hreg, BitVec.ofNat_eq_ofNat, BitVec.getLsbD_zero]
  | some reg =>
    obtain rfl := eq_regOffset_of_regAt hreg
    rw [readByte_regOffset, readReg_getLsbD r reg hk]

/-! ### Writes -/

/-- The case list gives a write to a reserved offset no effect. -/
theorem operandsAfterWrite_reserved (o : Operands) {off : Offset} (h : regAt off = none) (v : Byte) :
    Spec.operandsAfterWrite o off.toNat v = o := by
  have hoff := toNat_of_regAt_none off h
  simp (disch := omega) only [Spec.operandsAfterWrite, if_neg]

/-- Setting the low byte, by masking the old one out (R29). -/
theorem setLowByte_eq_or (x : Ident) (v : Byte) : setLowByte x v = (x &&& 0x700#11) ||| v.setWidth 11 := by
  have hmask : ∀ k < 11, (0x700#11).getLsbD k = decide (8 ≤ k) := by decide
  apply BitVec.eq_of_getLsbD_eq
  intro k hk
  rw [setLowByte_getLsbD, BitVec.getLsbD_or, BitVec.getLsbD_and, hmask k hk, BitVec.getLsbD_setWidth]
  split
  next h8 => simp [hk, h8]
  next h8 => simp [Nat.le_of_not_lt h8]

/-- Setting the high part, by masking the old one out (R29). -/
theorem setHighBits_eq_or (x : Ident) (v : Byte) : setHighBits x v = (x &&& 0x0FF#11) ||| (v.setWidth 11 <<< 8) := by
  have hmask : ∀ k < 11, (0x0FF#11).getLsbD k = decide (k < 8) := by decide
  apply BitVec.eq_of_getLsbD_eq
  intro k hk
  rw [setHighBits_getLsbD, if_pos hk, BitVec.getLsbD_or, BitVec.getLsbD_and, hmask k hk, BitVec.getLsbD_shiftLeft,
    BitVec.getLsbD_setWidth]
  split
  next h8 => simp [h8]
  next h8 => simp [h8, hk, show k - 8 < 11 by omega]

/-- A write to a named register is the case list's at the register's offset. -/
theorem writeOperand_eq_operandsAfterWrite (o : Operands) (v : Byte) (reg : Reg) :
    writeOperand o v reg = Spec.operandsAfterWrite o (regOffset reg).toNat v := by
  cases reg with
  | inIdl => exact congrArg (fun x => { o with inId := x }) (setLowByte_eq_or o.inId v)
  | inIdh => exact congrArg (fun x => { o with inId := x }) (setHighBits_eq_or o.inId v)
  | inD i =>
    have hi := i.isLt
    rw [regOffset_inD_toNat]
    simp (disch := omega) only [Spec.operandsAfterWrite, if_neg, if_pos]
    simp [writeOperand, Vector.setIfInBounds, Vector.set, Array.setIfInBounds]
  | outD i =>
    have hi := i.isLt
    rw [regOffset_outD_toNat]
    simp (disch := omega) only [Spec.operandsAfterWrite, if_neg]
    rfl
  | _ => rfl

/-- A write at any offset sets the operands the case list gives. -/
theorem writeByte_eq_operandsAfterWrite (r : Regs) (off : Offset) (v : Byte) :
    writeByte r off v = r.withOperands (Spec.operandsAfterWrite r.operands off.toNat v) := by
  cases hreg : regAt off with
  | none => simp [writeByte, hreg, operandsAfterWrite_reserved r.operands hreg, Regs.withOperands]
  | some reg =>
    obtain rfl := eq_regOffset_of_regAt hreg
    simp [writeByte, writeOperand_eq_operandsAfterWrite]

/-! ### A write repeated -/

/-- Setting the low byte twice to the same value is setting it once. -/
@[simp] theorem setLowByte_setLowByte (x : Ident) (v : Byte) : setLowByte (setLowByte x v) v = setLowByte x v := by
  apply BitVec.eq_of_getLsbD_eq
  intro k _
  simp only [setLowByte_getLsbD]
  split <;> rfl

/-- Setting the high part twice to the same value is setting it once. -/
@[simp] theorem setHighBits_setHighBits (x : Ident) (v : Byte) : setHighBits (setHighBits x v) v = setHighBits x v := by
  apply BitVec.eq_of_getLsbD_eq
  intro k _
  simp only [setHighBits_getLsbD]
  split <;> rfl

/-- A write to a named register repeated is one write (20_memory.md R55). -/
@[simp] theorem writeOperand_writeOperand (o : Operands) (v : Byte) (reg : Reg) :
    writeOperand (writeOperand o v reg) v reg = writeOperand o v reg := by
  cases reg with
  | inIdl => exact congrArg (fun x => { o with inId := x }) (setLowByte_setLowByte o.inId v)
  | inIdh => exact congrArg (fun x => { o with inId := x }) (setHighBits_setHighBits o.inId v)
  | inD i => exact congrArg (fun d => { o with inD := d }) (Vector.set_set v i.isLt)
  | _ => rfl

/-- A write at any offset repeated is one write (R55). -/
@[simp] theorem writeByte_writeByte (r : Regs) (off : Offset) (v : Byte) :
    writeByte (writeByte r off v) off v = writeByte r off v := by
  cases hreg : regAt off with
  | none => simp [writeByte, hreg]
  | some reg => simp [writeByte, hreg, Regs.withOperands]

/-! ### A filter command repeated -/

/-- A type up to 3 is not reserved. -/
theorem isReservedType_eq_false_of_le {t : TypeBits} (h : t.toNat ≤ 3) : isReservedType t = false := by
  have hne := mt (isReservedType_iff t).1 (by omega)
  exact Bool.eq_false_of_not_eq_true hne

/-- The first accepted filter command configures slot 1 (42_filter.md R120). -/
theorem filterRegs_slots_of_fslot_clear (m : Ident) {r : Regs} (ht : isReservedType r.operands.inType = false)
    (hf : r.slots.fslot = false) :
    (filterRegs m r).slots = { fslot := true, slot1 := configuredSlot (filterValue r.operands) m, slot2 := r.slots.slot2 } := by
  rw [filterRegs_accepted m ht, Regs.withStatus_slots, Regs.withSlots_slots]
  obtain ⟨-, h⟩ | ⟨hset, -⟩ := placeFilter_cases r.slots (filterValue r.operands) m
  · exact h
  · exact absurd (hf.symm.trans hset) Bool.false_ne_true

/-- Every later accepted filter command configures slot 2 (R120). -/
theorem filterRegs_slots_of_fslot_set (m : Ident) {r : Regs} (ht : isReservedType r.operands.inType = false)
    (hf : r.slots.fslot = true) :
    (filterRegs m r).slots = { fslot := true, slot1 := r.slots.slot1, slot2 := configuredSlot (filterValue r.operands) m } := by
  rw [filterRegs_accepted m ht, Regs.withStatus_slots, Regs.withSlots_slots]
  obtain ⟨hclear, -⟩ | ⟨-, h⟩ := placeFilter_cases r.slots (filterValue r.operands) m
  · exact absurd (hclear.symm.trans hf) Bool.false_ne_true
  · exact h

/-- The same filter command twice, from FSLOT = 0, configures both slots alike: the first leaves the operands and sets FSLOT. -/
theorem filterRegs_filterRegs_slots (m : Ident) {r : Regs} (ht : isReservedType r.operands.inType = false)
    (hf : r.slots.fslot = false) :
    (filterRegs m (filterRegs m r)).slots =
      { fslot := true, slot1 := configuredSlot (filterValue r.operands) m, slot2 := configuredSlot (filterValue r.operands) m } := by
  obtain ⟨hoperands, -⟩ := filterRegs_frame m r
  have hone := filterRegs_slots_of_fslot_clear m ht hf
  rw [filterRegs_slots_of_fslot_set m (by rwa [hoperands]) (by rw [hone]), hone, hoperands]

/-- A run whose first act is the host's write of FSTRICT, outside reset. -/
theorem run_fstrict (k : Nat) (r : Regs) (rest : List Input) (hd : Option Byte) (rx : Option RxAnswer) (n : Nat) :
    runSteps (k + 1) ⟨r, .host (.write 0x00 [0x04]) :: rest, false, hd, rx, n⟩ =
      runSteps k ⟨filterRegs strictMask r, rest, false, hd, rx, n⟩ :=
  run_command (by decide) (exec_eq_next .fstrict ⟨r, rest, false, hd, rx, n⟩) k

end Sys2Proof.Machine
end

section
/-! Proofs of the statements on the register window and the host's accesses (20_memory.md): which steps go on, by which name the others are
refused, what a read returns and a write sets, which writes may be repeated, and what an overlapping query sees. -/

namespace Sys2Proof.Machine

/-! ### Which steps go on -/

/-- Settles O8: each act goes on exactly under its own condition, and there is no fault to stop with. -/
theorem stepStopsOnlyOutsideTheInterface : Obligations.StepStopsOnlyOutsideTheInterface := by
  refine fun s => ⟨?_, fun r => nomatch r⟩
  unfold goesOn Spec.insideInterface
  cases hin : s.inputs with
  | nil => exact iff_of_true ⟨s, step_of_inputs_nil hin⟩ trivial
  | cons i rest =>
    rw [step_of_inputs_cons hin]
    cases i with
    | host a => exact hostAccess_goesOn_iff a (s.withInputs rest)
    | query f => exact answerQuery_goesOn_iff f s.regs (s.withInputs rest)
    | overlap a f => exact overlapped_goesOn_iff a f (s.withInputs rest)
    | resetPin level => exact iff_of_true ⟨_, rfl⟩ trivial

/-- Settles O9: an overlap takes the refusal of its access, and where the access goes on that of its query. -/
theorem refusalsNameTheirCause : Obligations.RefusalsNameTheirCause := by
  intro s rest a f
  refine ⟨fun hs => ?_, fun hs ha => ?_, fun hf => ⟨?_, fun hs ha => ?_⟩⟩
  · have h : hostAccess a (s.withInputs rest) = .refused .accessDuringReset := hostAccess_during_reset a hs
    exact ⟨h, overlapped_of_refused h f⟩
  · have h : hostAccess a (s.withInputs rest) = .refused .accessWidth := hostAccess_wide hs ha
    exact ⟨h, overlapped_of_refused h f⟩
  · exact answerQuery_nonstandard hf s.regs (s.withInputs rest)
  · obtain ⟨u, hu⟩ := (hostAccess_goesOn_iff a (s.withInputs rest)).2 ⟨hs, ha⟩
    exact (overlapped_of_next hu f).trans (answerQuery_nonstandard hf _ _)

/-! ### Reads and writes -/

/-- Settles O10: the byte returned is `readByte`'s, which agrees with the table bit by bit. -/
theorem hostReadReturnsTheWindowByte : Obligations.HostReadReturnsTheWindowByte := fun s off rest hs =>
  ⟨readByte s.regs off, (step_host s (.read off 1) rest).trans (hostAccess_read off hs),
    fun _ hk => readByte_getLsbD s.regs off hk⟩

/-- Settles O11: a write to CMD is the command, and `writeByte` agrees with the case list at every other offset. -/
theorem hostWriteActsByTheCaseList : Obligations.HostWriteActsByTheCaseList := by
  intro s off v rest hs
  refine (step_host s (.write off [v]) rest).trans ?_
  split
  next hcmd =>
    obtain rfl : off = 0x00 := BitVec.eq_of_toNat_eq hcmd
    exact hostAccess_command v hs
  next hcmd =>
    have hoff : off ≠ 0x00 := fun h => hcmd (h ▸ rfl)
    refine (hostAccess_write (s := s.withInputs rest) v hs hoff).trans ?_
    rw [State.withInputs_regs, writeByte_eq_operandsAfterWrite]
    rfl

/-- Settles O14: an operand write is idempotent on the registers; one FSTRICT fills slot 1, and the second one slot 2. -/
theorem operandWritesAreIdempotentCommandsAreNot : Obligations.OperandWritesAreIdempotentCommandsAreNot := by
  constructor
  · rintro ⟨r, _, _, hd, rx, n⟩ off v rfl hoff
    have hne : off ≠ 0x00 := fun h => hoff (h ▸ rfl)
    refine (run_write hne 1 r v _ hd rx n).trans <| (run_write hne 0 _ v [] hd rx n).trans ?_
    rw [writeByte_writeByte]
    exact (run_write hne 0 r v [] hd rx n).symm
  · rintro ⟨r, _, _, hd, rx, n⟩ rfl ht hf
    have hdefined : isReservedType r.operands.inType = false := isReservedType_eq_false_of_le ht
    have hone := filterRegs_slots_of_fslot_clear strictMask hdefined hf
    have htwo := filterRegs_filterRegs_slots strictMask hdefined hf
    refine ⟨_, _, run_fstrict 0 r [] hd rx n, (run_fstrict 1 r _ hd rx n).trans (run_fstrict 0 _ [] hd rx n), ?_⟩
    dsimp only
    rw [hone, htwo]
    refine ⟨rfl, rfl, rfl, rfl, rfl, fun hempty => ⟨hempty, fun heq => ?_⟩⟩
    have hvalid := congrArg (fun r => r.slots.slot2.valid) heq
    simp [hone, htwo, hempty, configuredSlot] at hvalid

/-! ### Overlapping queries -/

/-- Settles O46: the overlap is the access, then the answer on one of the two register files. -/
theorem overlappingQuerySeesBeforeOrAfter : Obligations.OverlappingQuerySeesBeforeOrAfter := by
  intro s u a rxId rest h
  have hu : hostAccess a (s.withInputs rest) = .next u := h
  obtain ⟨hinputs, hreset⟩ := hostAccess_keeps hu
  refine ⟨_, overlapped_of_next hu (.standard rxId), rfl, rfl, hinputs, hreset, ?_⟩
  rw [State.withRxAnswer_rxAnswer]
  obtain hj | hj := judgedRegs_cases s.races s.regs u.regs
  · exact .inl (congrArg (fun r => some (rxPort r rxId)) hj)
  · exact .inr (congrArg (fun r => some (rxPort r rxId)) hj)

end Sys2Proof.Machine
end

section
/-! The decoder by the bits its rows fix (30_encoding.md R70 to R73): which bytes are legal, which row an illegal byte belongs to, and what a
word of the opcode table is read as. Later proofs ask here what a byte decodes to, and do not unfold the decoder. -/

namespace Sys2Proof.Machine

/-! ### The fields of a CMD byte -/

/-- Z is the byte without its three low bits. -/
theorem zField_toNat (v : Byte) : (zField v).toNat = v.toNat / 8 := by
  have hv := v.isLt
  rw [zField, BitVec.extractLsb'_toNat, Nat.shiftRight_eq_div_pow]
  omega

/-- OP is the three low bits of the byte. -/
theorem opField_toNat (v : Byte) : (opField v).toNat = v.toNat % 8 := by
  rw [opField, BitVec.extractLsb'_toNat, Nat.shiftRight_zero]

/-- The decoder's test for an illegal byte: Z is not 0 or OP is 7 exactly above 6 (R72). -/
theorem illegalFields_iff (v : Byte) : zField v ≠ 0 ∨ opField v = 7 ↔ 6 < v.toNat := by
  have hz : zField v = 0 ↔ v.toNat / 8 = 0 := by rw [← BitVec.toNat_inj, zField_toNat]; rfl
  have ho : opField v = 7 ↔ v.toNat % 8 = 7 := by rw [← BitVec.toNat_inj, opField_toNat]; rfl
  rw [ne_eq, hz, ho]
  omega

/-- A byte above 6 decodes to an illegal row. -/
theorem decode_of_lt {v : Byte} (h : 6 < v.toNat) : decode v = decodeIllegal v := by
  rw [decode, if_pos ((illegalFields_iff v).2 h)]

/-- A byte with a bit of Z set decodes to an illegal row. -/
theorem decode_of_getLsbD {v : Byte} {k : Nat} (hk : 3 ≤ k) (h : v.getLsbD k = true) : decode v = decodeIllegal v := by
  have hbit : 2 ^ k ≤ v.toNat := Nat.ge_two_pow_of_testBit h
  have hpow : 2 ^ 3 ≤ 2 ^ k := Nat.pow_le_pow_right (by decide) hk
  exact decode_of_lt (by omega)

/-! ### The illegal rows -/

/-- Row 1xxxxxxx by its fixed bits. -/
theorem inRow_z7_iff (v : Byte) : inRow 0x80 0x80 v = true ↔ v.getLsbD 7 := by
  revert v; decide

/-- Row 01xxxxxx by its fixed bits. -/
theorem inRow_z6_iff (v : Byte) : inRow 0xC0 0x40 v = true ↔ ¬ v.getLsbD 7 ∧ v.getLsbD 6 := by
  revert v; decide

/-- Row 001xxxxx by its fixed bits. -/
theorem inRow_z5_iff (v : Byte) : inRow 0xE0 0x20 v = true ↔ ¬ v.getLsbD 7 ∧ ¬ v.getLsbD 6 ∧ v.getLsbD 5 := by
  revert v; decide

/-- Row 0001xxxx by its fixed bits. -/
theorem inRow_z4_iff (v : Byte) :
    inRow 0xF0 0x10 v = true ↔ ¬ v.getLsbD 7 ∧ ¬ v.getLsbD 6 ∧ ¬ v.getLsbD 5 ∧ v.getLsbD 4 := by
  revert v; decide

/-- Row 00001xxx by its fixed bits. -/
theorem inRow_z3_iff (v : Byte) :
    inRow 0xF8 0x08 v = true ↔ ¬ v.getLsbD 7 ∧ ¬ v.getLsbD 6 ∧ ¬ v.getLsbD 5 ∧ ¬ v.getLsbD 4 ∧ v.getLsbD 3 := by
  revert v; decide

/-- A byte of row 1xxxxxxx decodes to it. -/
theorem decode_illegalZ7 {v : Byte} (h : inRow 0x80 0x80 v = true) : decode v = .illegalZ7 v := by
  have h7 := (inRow_z7_iff v).1 h
  rw [decode_of_getLsbD (by decide) h7, decodeIllegal, if_pos h7]

/-- A byte of row 01xxxxxx decodes to it. -/
theorem decode_illegalZ6 {v : Byte} (h : inRow 0xC0 0x40 v = true) : decode v = .illegalZ6 v := by
  obtain ⟨h7, h6⟩ := (inRow_z6_iff v).1 h
  rw [decode_of_getLsbD (by decide) h6, decodeIllegal, if_neg h7, if_pos h6]

/-- A byte of row 001xxxxx decodes to it. -/
theorem decode_illegalZ5 {v : Byte} (h : inRow 0xE0 0x20 v = true) : decode v = .illegalZ5 v := by
  obtain ⟨h7, h6, h5⟩ := (inRow_z5_iff v).1 h
  rw [decode_of_getLsbD (by decide) h5, decodeIllegal, if_neg h7, if_neg h6, if_pos h5]

/-- A byte of row 0001xxxx decodes to it. -/
theorem decode_illegalZ4 {v : Byte} (h : inRow 0xF0 0x10 v = true) : decode v = .illegalZ4 v := by
  obtain ⟨h7, h6, h5, h4⟩ := (inRow_z4_iff v).1 h
  rw [decode_of_getLsbD (by decide) h4, decodeIllegal, if_neg h7, if_neg h6, if_neg h5, if_pos h4]

/-- A byte of row 00001xxx decodes to it. -/
theorem decode_illegalZ3 {v : Byte} (h : inRow 0xF8 0x08 v = true) : decode v = .illegalZ3 v := by
  obtain ⟨h7, h6, h5, h4, h3⟩ := (inRow_z3_iff v).1 h
  rw [decode_of_getLsbD (by decide) h3, decodeIllegal, if_neg h7, if_neg h6, if_neg h5, if_neg h4, if_pos h3]

/-! ### Legal and well-formed commands -/

/-- Every byte's illegal row holds the byte. -/
theorem decodeIllegal_wf (v : Byte) : (decodeIllegal v).wf = true := by
  unfold decodeIllegal
  split_ifs with h7 h6 h5 h4 h3
  · exact (inRow_z7_iff v).2 h7
  · exact (inRow_z6_iff v).2 ⟨h7, h6⟩
  · exact (inRow_z5_iff v).2 ⟨h7, h6, h5⟩
  · exact (inRow_z4_iff v).2 ⟨h7, h6, h5, h4⟩
  · exact (inRow_z3_iff v).2 ⟨h7, h6, h5, h4, h3⟩
  · rfl

/-- No illegal row is legal. -/
theorem decodeIllegal_legal (v : Byte) : (decodeIllegal v).legal = false := by
  unfold decodeIllegal
  split_ifs <;> rfl

/-- The legal rows have no free bits, so their commands are well formed. -/
theorem wf_of_legal {i : Instr} (h : i.legal = true) : i.wf = true := by
  cases i with
  | illegalOp7 | illegalZ7 v | illegalZ6 v | illegalZ5 v | illegalZ4 v | illegalZ3 v => cases h
  | _ => rfl

/-- Exactly the bytes 0x00 to 0x06 are legal (R72). -/
theorem decode_legal_iff (v : Byte) : (decode v).legal = true ↔ v.toNat ≤ 6 := by
  have hlegal : ∀ n ≤ 6, (decode (BitVec.ofNat 8 n)).legal = true := by decide
  constructor
  · intro h
    by_contra hlt
    rw [decode_of_lt (by omega), decodeIllegal_legal] at h
    cases h
  · intro h
    simpa using hlegal v.toNat h

/-- Every byte decodes to a well-formed command. -/
theorem decode_wf (v : Byte) : (decode v).wf = true := by
  by_cases h : v.toNat ≤ 6
  · exact wf_of_legal ((decode_legal_iff v).2 h)
  · rw [decode_of_lt (by omega)]
    exact decodeIllegal_wf v

/-- A well-formed command is read back from its CMD byte. -/
theorem decode_encode {i : Instr} (h : i.wf = true) : decode (encode i) = i := by
  cases i with
  | illegalZ7 v => exact decode_illegalZ7 h
  | illegalZ6 v => exact decode_illegalZ6 h
  | illegalZ5 v => exact decode_illegalZ5 h
  | illegalZ4 v => exact decode_illegalZ4 h
  | illegalZ3 v => exact decode_illegalZ3 h
  | _ => rfl

/-! ### Words of the opcode table -/

/-- A table word is one byte, and the command that byte decodes to. -/
theorem decodeTableWord_eq_some_iff {nbits w : Nat} {i : Instr} :
    decodeTableWord nbits w = some i ↔ (nbits = 8 ∧ w < 256) ∧ decode (BitVec.ofNat 8 w) = i := by
  unfold decodeTableWord tableByte
  split <;> simp [*]

/-- Every byte is a table word of 8 bits. -/
theorem decodeTableWord_toNat (v : Byte) : decodeTableWord 8 v.toNat = some (decode v) :=
  decodeTableWord_eq_some_iff.2 ⟨⟨rfl, v.isLt⟩, by rw [BitVec.ofNat_toNat, BitVec.setWidth_eq]⟩

/-! ### The effect of an illegal command -/

/-- An illegal command reports itself and leaves every other register group (R73). -/
theorem commandRegs_of_not_legal {i : Instr} (h : i.legal = false) (r : Regs) :
    commandRegs i r = r.withStatus illegalStatus := by
  cases i with
  | illegalOp7 | illegalZ7 v | illegalZ6 v | illegalZ5 v | illegalZ4 v | illegalZ3 v => rfl
  | _ => cases h

/-- An illegal command is the state with the error bits of an illegal byte. -/
theorem exec_of_not_legal {i : Instr} (h : i.legal = false) (s : State) :
    exec i s = .next { s with regs := { s.regs with status := { terr := false, cerr := true } } } := by
  rw [exec_eq_next, commandRegs_of_not_legal h]
  rfl

end Sys2Proof.Machine
end

section
/-! Safe runs of the lines of a host program (30_encoding.md R78): a write, a command and reads, one rule each, on a machine out of reset with no
error bit. -/

namespace Sys2Proof.Machine

/-- Two registers at one offset are one. -/
theorem regOffset_inj {reg reg' : Reg} (h : regOffset reg = regOffset reg') : reg = reg' := by
  simpa only [regAt_regOffset, Option.some.injEq] using congrArg regAt h

/-- A write at the offset of a named register is the write of its operand. -/
theorem writeByte_regOffset (r : Regs) (reg : Reg) (v : Byte) :
    writeByte r (regOffset reg) v = r.withOperands (writeOperand r.operands v reg) := by
  simp [writeByte]

/-- No error bit is set exactly where STATUS reports success. -/
theorem State.noError_iff (s : State) : s.noError ↔ s.regs.status = okStatus := by
  obtain ⟨⟨_, _, _, _, ⟨terr, cerr⟩, _⟩, _⟩ := s
  simp [State.noError, okStatus]

/-- A safe run of `k` steps from `s` that ends in `u`. -/
def SafeRunTo (k : Nat) (s u : State) : Prop := safeRun k s ∧ runSteps k s = .next u

/-- No step is a safe run where there is no error. -/
theorem SafeRunTo.zero {s : State} (h : s.noError) : SafeRunTo 0 s s := ⟨h, rfl⟩

/-- A step that goes on from a state with no error, before a safe run. -/
theorem SafeRunTo.succ {k : Nat} {s t u : State} (hs : s.noError) (hstep : step s = .next t) (h : SafeRunTo k t u) :
    SafeRunTo (k + 1) s u := by
  obtain ⟨hsafe, hrun⟩ := h
  exact ⟨⟨hs, t, hstep, hsafe⟩, (run_of_next hstep k).trans hrun⟩

section Lines
variable {r : Regs} {rest : List Input} {hd : Option Byte} {rx : Option RxAnswer} {m k : Nat} {u : State}

/-- A line `WR` to a register other than CMD, before a safe run from the operand set. -/
theorem SafeRunTo.lineWr {reg : Reg} {v : Byte} (hreg : reg ≠ .cmd) (hok : r.status = okStatus)
    (h : SafeRunTo k ⟨r.withOperands (writeOperand r.operands v reg), rest, false, hd, rx, m⟩ u) :
    SafeRunTo (k + 1) ⟨r, .host (lineWr reg v) :: rest, false, hd, rx, m⟩ u := by
  have hoff : regOffset reg ≠ 0x00 := fun he => hreg (regOffset_inj (he : regOffset reg = regOffset .cmd))
  rw [← writeByte_regOffset] at h
  exact .succ ((State.noError_iff _).2 hok) (hostAccess_write (s := ⟨r, rest, false, hd, rx, m⟩) v rfl hoff) h

/-- A line `CMD`, before a safe run from the registers the command leaves. -/
theorem SafeRunTo.lineCmd {i : Instr} (hwf : i.wf = true) (hok : r.status = okStatus)
    (h : SafeRunTo k ⟨commandRegs i r, rest, false, hd, rx, m⟩ u) :
    SafeRunTo (k + 1) ⟨r, .host (lineCmd i) :: rest, false, hd, rx, m⟩ u := by
  refine .succ ((State.noError_iff _).2 hok) ?_ h
  refine (hostAccess_command (s := ⟨r, rest, false, hd, rx, m⟩) (encode i) rfl).trans ?_
  rw [decode_encode hwf]
  exact exec_eq_next i _

/-- Lines `RD`, one for each of the registers `regs`, are a safe run that returns their bytes one after the other and changes no register. -/
theorem SafeRunTo.lineRds (hok : r.status = okStatus) (regs : List Reg) : ∀ hd : Option Byte,
    SafeRunTo regs.length ⟨r, hostInputs (regs.map lineRd), false, hd, rx, m⟩
      ⟨r, [], false, regs.foldl (fun _ reg => some (readReg r reg)) hd, rx, m⟩ := by
  induction regs with
  | nil => exact fun hd => .zero ((State.noError_iff _).2 hok)
  | cons reg regs ih =>
    intro hd
    refine .succ ((State.noError_iff _).2 hok) ?_ (ih (some (readReg r reg)))
    rw [← readByte_regOffset]
    exact hostAccess_read (s := ⟨r, hostInputs (regs.map lineRd), false, hd, rx, m⟩) (regOffset reg) rfl

end Lines

/-! ### `encode` and `send` -/

/-- The operands after the lines of `encode n, t, s` (R79): each register takes the bits it holds. -/
def encodeOperands (o : Operands) (n t sw : Byte) : Operands :=
  { o with inNode := n, inType := t.extractLsb' 0 3, inSw := sw.getLsbD 0 }

/-- The registers `send` reads, in its order (R79). -/
def frameRegs : List Reg :=
  [.outIdl, .outIdh, .outD 0, .outD 1, .outD 2, .outD 3, .outD 4, .outD 5, .outD 6, .outD 7]

/-- The type register holds `t` modulo 8. -/
theorem typeField_toNat (t : Byte) : (t.extractLsb' 0 3 : TypeBits).toNat = t.toNat % 8 := opField_toNat t

/-- An accepted ENC leaves the frame of its operands and no error (40_codec.md R91). -/
theorem commandRegs_enc_accepted {r : Regs} (h : isReservedType r.operands.inType = false) :
    commandRegs .enc r = (r.withFrame (encodeFrame r.operands)).withStatus okStatus := by
  simp [commandRegs, encRegs, typeStatus, okStatus, h]

/-- The lines of `send` with a defined type are a safe run: they set the operands, leave ENC's frame and end with the byte of OUT_D[7]. -/
theorem safeRunTo_pseudoSend {r : Regs} (hok : r.status = okStatus) (n t sw : Byte) (ht : t.toNat % 8 ≤ 3)
    (hd : Option Byte) (rx : Option RxAnswer) (m : Nat) :
    let o := encodeOperands r.operands n t sw
    SafeRunTo 14 ⟨r, hostInputs (pseudoSend n t sw), false, hd, rx, m⟩
      ⟨((r.withOperands o).withFrame (encodeFrame o)).withStatus okStatus, [], false, some (encodeFrame o).outD[7], rx, m⟩ := by
  intro o
  have hdefined : isReservedType o.inType = false := isReservedType_eq_false_of_le ((typeField_toNat t).trans_le ht)
  have hreads : SafeRunTo frameRegs.length
      ⟨commandRegs .enc (r.withOperands o), hostInputs (frameRegs.map lineRd), false, hd, rx, m⟩
      ⟨((r.withOperands o).withFrame (encodeFrame o)).withStatus okStatus, [], false, some (encodeFrame o).outD[7], rx, m⟩ := by
    rw [commandRegs_enc_accepted (r := r.withOperands o) hdefined]
    exact .lineRds rfl frameRegs hd
  exact .lineWr (by decide) hok <| .lineWr (by decide) hok <| .lineWr (by decide) hok <| .lineCmd rfl hok hreads

end Sys2Proof.Machine
end

section
/-! Proofs of the statements on the encoding (30_encoding.md): the decoder and the encoder, the placed word, the illegal commands, and the
pseudo-operations. -/

namespace Sys2Proof.Machine

/-! ### Commands and their bytes -/

/-- Settles O1: the byte by the rows' fixed bits, and the table word is that byte. -/
theorem decodeOfEncodeIsTheCommand : Obligations.DecodeOfEncodeIsTheCommand := by
  intro i hwf
  rw [decodeTableWord_toNat, decode_encode hwf]
  exact ⟨rfl, rfl⟩

/-- Settles O2: the seven bytes one by one, and the laws of `decode` for every byte. -/
theorem decoderIsTotalWithSevenLegalBytes : Obligations.DecoderIsTotalWithSevenLegalBytes :=
  ⟨⟨rfl, rfl, rfl, rfl, rfl, rfl, rfl⟩, fun v => ⟨decode_legal_iff v, decode_wf v, encode_decode v⟩⟩

/-- Settles O3: each byte is the encoding of the well-formed command it is to decode to. -/
theorem writtenOutWordsDecodeToTheirRow : Obligations.WrittenOutWordsDecodeToTheirRow :=
  ⟨decode_encode (i := .enc) rfl, decode_encode (i := .dec) rfl, decode_encode (i := .init) rfl,
    decode_encode (i := .ffirst) rfl, decode_encode (i := .matchIdent) rfl, decode_encode (i := .illegalOp7) rfl,
    decode_encode (i := .illegalZ3 0x08) rfl, decode_encode (i := .illegalZ4 0x17) rfl,
    decode_encode (i := .illegalZ5 0x21) rfl, decode_encode (i := .illegalZ6 0x40) rfl,
    decode_encode (i := .illegalZ7 0x81) rfl⟩

/-- Settles O4: mask and match of a row say that the byte is in the row, by the row's fixed bits. -/
theorem illegalBytesDecodeToTheirRow : Obligations.IllegalBytesDecodeToTheirRow := fun _ =>
  ⟨fun h => decode_illegalZ7 (beq_iff_eq.2 h), fun h => decode_illegalZ6 (beq_iff_eq.2 h),
    fun h => decode_illegalZ5 (beq_iff_eq.2 h), fun h => decode_illegalZ4 (beq_iff_eq.2 h),
    fun h => decode_illegalZ3 (beq_iff_eq.2 h), fun h => h ▸ decode_encode (i := .illegalOp7) rfl⟩

/-! ### Commands and their effects -/

/-- Settles O6: the placed act is the host's write of the word's byte to CMD, with reset released. -/
theorem placedWordRunsNext : Obligations.PlacedWordRunsNext := by
  intro s w i hw
  obtain ⟨⟨-, hlt⟩, rfl⟩ := decodeTableWord_eq_some_iff.1 hw
  have hmod : w % 2 ^ 8 = w := Nat.mod_eq_of_lt hlt
  rw [State.withFetchWord, commandWrite, hmod]
  exact hostAccess_command (s := s.withResetAsserted false) (BitVec.ofNat 8 w) rfl

/-- Settles O32: each illegal row, and every byte above 6, is a command that is not legal. -/
theorem illegalCommandsSetOnlyCerr : Obligations.IllegalCommandsSetOnlyCerr := by
  intro s v
  have hillegal (h : 6 < v.toNat) : (decode v).legal = false := by rw [decode_of_lt h, decodeIllegal_legal]
  exact ⟨exec_of_not_legal rfl s, fun _ => exec_of_not_legal rfl s, fun _ => exec_of_not_legal rfl s,
    fun _ => exec_of_not_legal rfl s, fun _ => exec_of_not_legal rfl s, fun _ => exec_of_not_legal rfl s,
    fun h => exec_of_not_legal (hillegal h) s⟩

/-! ### Pseudo-operations -/

/-- The low byte of an identifier is the identifier cut to a byte. -/
theorem lowByte_eq_setWidth (x : Ident) : lowByte x = x.setWidth 8 :=
  (BitVec.setWidth_eq_extractLsb' (by decide)).symm

/-- The high byte of an identifier is the identifier without its low byte. -/
theorem highByte_eq_setWidth (x : Ident) : highByte x = (x >>> 8).setWidth 8 := by
  apply BitVec.eq_of_getLsbD_eq
  intro k hk
  rw [highByte_getLsbD, BitVec.getLsbD_setWidth, BitVec.getLsbD_ushiftRight]
  by_cases h3 : k < 3
  · simp [h3, hk]
  · simp [h3, x.getLsbD_of_ge (8 + k) (by omega)]

/-- Settles O52: the lines by definition, and the two bytes of an identifier. -/
theorem pseudoOperationsExpandToTheirLines : Obligations.PseudoOperationsExpandToTheirLines := by
  intro n t sw b0 d1 d2 d3 d4 d5 d6 d7 ident
  rw [← lowByte_eq_setWidth, ← highByte_eq_setWidth]
  exact ⟨rfl, rfl, rfl, rfl, rfl, rfl, rfl, rfl⟩

/-- Settles O53: the run of `send` ends with ENC's frame of the operands it set. -/
theorem sendLeavesTheFrameOfTheMessage : Obligations.SendLeavesTheFrameOfTheMessage := by
  rintro ⟨r, _, _, hd, rx, m⟩ n t sw rfl hok ht
  obtain ⟨hsafe, hrun⟩ := safeRunTo_pseudoSend ((State.noError_iff _).1 hok) n t sw ht hd rx m
  have hbytes (k : Nat) (hk : k < 8) (h1 : 1 ≤ k) (b : Bool) : (framePayload b r.operands.inD)[k] = r.operands.inD[k] :=
    Vector.getElem_set_ne (by decide) hk (by omega)
  refine ⟨hsafe, _, hrun, rfl, ?_, ?_, fun k hk h1 => hbytes k hk h1 _, congrArg some (hbytes 7 (by decide) (by decide) _)⟩
  · exact (encodeId_toNat n _).trans (congrArg (8 * n.toNat + ·) (typeField_toNat t))
  · exact (Vector.getElem_set_self (by decide)).trans (bitByte_getLsbD_zero sw)

end Sys2Proof.Machine
end

section
/-! The frame codec (40_codec.md): ENC and DEC field by field as their pseudocode writes them, the window's bytes each leaves, and the runs of
the lines of `encode` and `decode`. -/

namespace Sys2Proof.Machine

/-! ### The fields -/

/-- The type of an identifier, as a number, is the identifier modulo 8 (30_encoding.md R75). -/
theorem typeOf_toNat (ident : Ident) : (typeOf ident).toNat = ident.toNat % 8 := by
  simp [typeOf]

/-- The type of an identifier, cut out by a mask. -/
theorem typeOf_eq_setWidth (ident : Ident) : typeOf ident = (ident &&& 0b111).setWidth 3 := by
  have hmask : ∀ k < 3, (0b111 : Ident).getLsbD k = true := by decide
  apply BitVec.eq_of_getLsbD_eq
  intro k hk
  rw [BitVec.getLsbD_setWidth, BitVec.getLsbD_and, hmask k hk]
  simp [typeOf, hk]

/-- The node of an identifier, cut out by a shift. -/
theorem nodeOf_eq_setWidth (ident : Ident) : nodeOf ident = (ident >>> 3).setWidth 8 := by
  apply BitVec.eq_of_getLsbD_eq
  intro k hk
  simp [nodeOf, hk]

/-- TERR alone where the type is one of 4 to 7, no error elsewhere (60_exceptions.md R150). -/
theorem typeStatus_eq_ite (t : TypeBits) :
    typeStatus t = { terr := if 4 ≤ t.toNat then true else false, cerr := false } := by
  revert t; decide

/-- The byte of a one-bit register is 0x01 or 0x00 (10_state.md R22). -/
theorem bitByte_eq_ite (b : Bool) : bitByte b = if b then 0x01 else 0x00 := by
  cases b <;> rfl

/-- A one-bit register takes back the bit its byte shows. -/
theorem getLsbD_zero_bitByte (b : Bool) : (bitByte b).getLsbD 0 = b :=
  bitByte_getLsbD b 0

/-- A one-bit register's byte is true exactly where the bit is (40_codec.md R96). -/
@[simp] theorem bitByte_bne_zero (b : Bool) : (bitByte b != 0) = b := by
  cases b <;> rfl

/-- A strict payload byte is the byte of its truth. -/
theorem bitByte_bne_zero_of_strict {v : Byte} (h : v = 0x00 ∨ v = 0x01) : bitByte (v != 0) = v := by
  obtain rfl | rfl := h <;> rfl

/-- A type register takes back the bits its byte shows. -/
theorem extractLsb'_typeByte (t : TypeBits) : (typeByte t).extractLsb' 0 3 = t := by
  revert t; decide

/-- Byte 0 of ENC's payload is the switch state (R92). -/
@[simp] theorem framePayload_zero (sw : Bool) (d : Payload) : (framePayload sw d)[0] = bitByte sw :=
  Vector.getElem_set_self (by decide)

/-- Bytes 1 to 7 of ENC's payload pass through (R91). -/
theorem framePayload_of_pos (sw : Bool) (d : Payload) {k : Nat} (hk : k < 8) (h1 : 1 ≤ k) : (framePayload sw d)[k] = d[k] :=
  Vector.getElem_set_ne (by decide) hk (by omega)

/-- ENC's payload written out (R91, R92). -/
theorem framePayload_eq (sw : Bool) (d : Payload) :
    framePayload sw d = #v[(if sw then 0x01 else 0x00 : Byte), d[1], d[2], d[3], d[4], d[5], d[6], d[7]] := by
  apply Vector.ext
  intro k hk
  match k, hk with
  | 0, _ => exact (framePayload_zero sw d).trans (bitByte_eq_ite sw)
  | 1, _ | 2, _ | 3, _ | 4, _ | 5, _ | 6, _ | 7, _ => exact framePayload_of_pos sw d _ (by decide)

/-- DEC's message by the shift and the masks of its pseudocode (R95). -/
theorem decodeMessage_eq (o : Operands) :
    decodeMessage o = { outNode := (o.inId >>> 3).setWidth 8, outType := (o.inId &&& 0b111).setWidth 3
                        outSw := if o.inD[0] = 0x00 then false else true } := by
  have hsw : (o.inD[0] != 0) = if o.inD[0] = 0x00 then false else true := by
    split
    next h => exact bne_eq_false_iff_eq.2 h
    next h => exact bne_iff_ne.2 h
  rw [decodeMessage, nodeOf_eq_setWidth, typeOf_eq_setWidth, hsw]

/-- A rejected ENC leaves TERR and the old frame (R91). -/
theorem commandRegs_enc_reserved {r : Regs} (h : isReservedType r.operands.inType = true) :
    commandRegs .enc r = r.withStatus { terr := true, cerr := false } := by
  simp [commandRegs, encRegs, typeStatus, h]

/-! ### The operands read -/

/-- ENC's frame depends on the node, the type, the switch state and payload bytes 1 to 7. -/
theorem encodeFrame_congr {o o' : Operands} (hnode : o.inNode = o'.inNode) (htype : o.inType = o'.inType)
    (hsw : o.inSw = o'.inSw) (hd : ∀ (k : Nat) (_ : k < 8), 1 ≤ k → o.inD[k] = o'.inD[k]) :
    encodeFrame o = encodeFrame o' := by
  have hpayload : framePayload o.inSw o.inD = framePayload o'.inSw o'.inD := by
    apply Vector.ext
    intro k hk
    by_cases h1 : 1 ≤ k
    · rw [framePayload_of_pos _ _ hk h1, framePayload_of_pos _ _ hk h1, hd k hk h1]
    · obtain rfl : k = 0 := by omega
      rw [framePayload_zero, framePayload_zero, hsw]
  rw [encodeFrame, encodeFrame, hnode, htype, hpayload]

/-- DEC's message depends on the identifier and payload byte 0. -/
theorem decodeMessage_congr {o o' : Operands} (hid : o.inId = o'.inId) (hd : o.inD[0] = o'.inD[0]) :
    decodeMessage o = decodeMessage o' := by
  rw [decodeMessage, decodeMessage, hid, hd]

/-! ### The bytes kept -/

/-- Two register files show one byte at an offset where they agree on the register that stands there, if any. -/
theorem readByte_congr {r r' : Regs} {off : Offset} (h : ∀ reg, off = regOffset reg → readReg r reg = readReg r' reg) :
    readByte r off = readByte r' off := by
  cases hreg : regAt off with
  | none => rw [readByte_reserved r hreg, readByte_reserved r' hreg]
  | some reg =>
    obtain rfl := eq_regOffset_of_regAt hreg
    rw [readByte_regOffset, readByte_regOffset, h reg rfl]

/-- ENC keeps every register but STATUS and those of the frame (R90). -/
theorem readReg_commandRegs_enc (r : Regs) {reg : Reg} (hstatus : reg ≠ .status) (hidl : reg ≠ .outIdl)
    (hidh : reg ≠ .outIdh) (hd : ∀ i, reg ≠ .outD i) : readReg (commandRegs .enc r) reg = readReg r reg := by
  obtain ⟨hoperands, hmessage, hmres, hslots⟩ := encRegs_keeps r
  cases reg with
  | status => exact absurd rfl hstatus
  | outIdl => exact absurd rfl hidl
  | outIdh => exact absurd rfl hidh
  | outD i => exact absurd rfl (hd i)
  | _ => simp only [commandRegs, readReg, hoperands, hmessage, hmres, hslots]

/-- DEC keeps every register but STATUS and those of the message (R90). -/
theorem readReg_commandRegs_dec (r : Regs) {reg : Reg} (hstatus : reg ≠ .status) (hnode : reg ≠ .outNode)
    (htype : reg ≠ .outType) (hsw : reg ≠ .outSw) : readReg (commandRegs .dec r) reg = readReg r reg := by
  cases reg with
  | status => exact absurd rfl hstatus
  | outNode => exact absurd rfl hnode
  | outType => exact absurd rfl htype
  | outSw => exact absurd rfl hsw
  | _ => rfl

/-- Bits 7:2 of STATUS show the slot file alone (10_state.md R24). -/
theorem statusByte_slotBits (st st' : Status) (sf : SlotFile) : statusByte st sf &&& 0xFC = statusByte st' sf &&& 0xFC := by
  apply BitVec.eq_of_getLsbD_eq
  intro k hk
  rw [BitVec.getLsbD_and, BitVec.getLsbD_and, statusByte_getLsbD st sf k hk, statusByte_getLsbD st' sf k hk]
  match k with
  | 0 | 1 => simp
  | 2 | 3 | 4 | _ + 5 => rfl

/-- A command that keeps the slot file keeps bits 7:2 of STATUS. -/
theorem readByte_status_slotBits {r r' : Regs} (h : r'.slots = r.slots) :
    readByte r' 0x01 &&& 0xFC = readByte r 0x01 &&& 0xFC := by
  show statusByte r'.status r'.slots &&& 0xFC = statusByte r.status r.slots &&& 0xFC
  rw [h, statusByte_slotBits]

/-! ### Runs of `encode` and `decode` -/

/-- The operands after the lines of `decode ident, b0` (R79). -/
def decodeOperands (o : Operands) (ident : Ident) (b0 : Byte) : Operands :=
  { o with inId := ident, inD := o.inD.set 0 b0 }

/-- What `decode` reads out of the operands it set. -/
theorem decodeMessage_decodeOperands (o : Operands) (ident : Ident) (b0 : Byte) :
    decodeMessage (decodeOperands o ident b0) = { outNode := nodeOf ident, outType := typeOf ident, outSw := b0 != 0 } :=
  congrArg (fun v : Byte => Message.mk (nodeOf ident) (typeOf ident) (v != 0)) (Vector.getElem_set_self (by decide))

section Runs
variable (r : Regs) (hd : Option Byte) (rx : Option RxAnswer) (m : Nat)

/-- A run that begins with one-byte writes to offsets other than CMD's. -/
theorem run_writes (k : Nat) (rest : List Input) : ∀ (ws : List (Offset × Byte)) (r : Regs), (∀ w ∈ ws, w.1 ≠ 0x00) →
    runSteps (k + ws.length) ⟨r, ws.map (fun w => .host (.write w.1 [w.2])) ++ rest, false, hd, rx, m⟩ =
      runSteps k ⟨ws.foldl (fun r w => writeByte r w.1 w.2) r, rest, false, hd, rx, m⟩
  | [], _, _ => rfl
  | w :: ws, r, h =>
    have ⟨hw, hws⟩ := List.forall_mem_cons.1 h
    (run_write hw (k + ws.length) r w.2 _ hd rx m).trans (run_writes k rest ws (writeByte r w.1 w.2) hws)

/-- A run that is a line `CMD`. -/
theorem run_lineCmd {i : Instr} (hwf : i.wf = true) :
    runSteps 1 ⟨r, [.host (lineCmd i)], false, hd, rx, m⟩ = .next ⟨commandRegs i r, [], false, hd, rx, m⟩ :=
  run_command (decode_encode hwf) (exec_eq_next i ⟨r, [], false, hd, rx, m⟩) 0

/-- The lines of `encode` set its operands and perform ENC (30_encoding.md R79). -/
theorem run_pseudoEncode (n t sw : Byte) :
    runSteps 4 ⟨r, hostInputs (pseudoEncode n t sw), false, hd, rx, m⟩ =
      .next ⟨commandRegs .enc (r.withOperands (encodeOperands r.operands n t sw)), [], false, hd, rx, m⟩ :=
  (run_writes hd rx m 1 [.host (lineCmd .enc)] [(0x04, n), (0x05, t), (0x06, sw)] r (by simp)).trans
    (run_lineCmd _ hd rx m rfl)

/-- The lines of `decode` set its operands and perform DEC (R79). -/
theorem run_pseudoDecode (ident : Ident) (b0 : Byte) :
    runSteps 4 ⟨r, hostInputs (pseudoDecode ident b0), false, hd, rx, m⟩ =
      .next ⟨commandRegs .dec (r.withOperands (decodeOperands r.operands ident b0)), [], false, hd, rx, m⟩ := by
  have hregs : writeByte (writeByte (writeByte r 0x08 (lowByte ident)) 0x09 (highByte ident)) 0x10 b0 =
      r.withOperands (decodeOperands r.operands ident b0) :=
    congrArg (fun x => r.withOperands (decodeOperands r.operands x b0)) (setHighBits_setLowByte r.operands.inId ident)
  rw [← hregs]
  exact (run_writes hd rx m 1 [.host (lineCmd .dec)] [(0x08, lowByte ident), (0x09, highByte ident), (0x10, b0)] r
    (by simp)).trans (run_lineCmd _ hd rx m rfl)

/-- The lines of `encode` for a defined type leave the frame of the header and the switch state. -/
theorem exists_run_pseudoEncode (n : Byte) {ty : TypeBits} (hty : isReservedType ty = false) (sw : Bool) :
    ∃ r', runSteps 4 ⟨r, hostInputs (pseudoEncode n (typeByte ty) (bitByte sw)), false, hd, rx, m⟩ =
        .next ⟨r', [], false, hd, rx, m⟩ ∧
      r'.frame = { outId := encodeId n ty, outD := framePayload sw r.operands.inD } := by
  have hops : encodeOperands r.operands n (typeByte ty) (bitByte sw) =
      { r.operands with inNode := n, inType := ty, inSw := sw } := by
    rw [encodeOperands, extractLsb'_typeByte, getLsbD_zero_bitByte]
  refine ⟨_, run_pseudoEncode r hd rx m n _ _, ?_⟩
  rw [hops, commandRegs_enc_accepted hty]
  rfl

/-- The lines of `decode` leave the message of the identifier and the byte, and report its type. -/
theorem exists_run_pseudoDecode (ident : Ident) (b0 : Byte) :
    ∃ r', runSteps 4 ⟨r, hostInputs (pseudoDecode ident b0), false, hd, rx, m⟩ = .next ⟨r', [], false, hd, rx, m⟩ ∧
      r'.message = { outNode := nodeOf ident, outType := typeOf ident, outSw := b0 != 0 } ∧
      r'.status = typeStatus (typeOf ident) :=
  ⟨_, run_pseudoDecode r hd rx m ident b0, decodeMessage_decodeOperands r.operands ident b0, rfl⟩

end Runs

end Sys2Proof.Machine
end

section
/-! Proofs of the statements on the frame codec (40_codec.md): what ENC and DEC compute, from which operands, what they keep, and that each undoes
the other. -/

namespace Sys2Proof.Machine

/-! ### ENC -/

/-- Settles O19: the two branches of ENC, and the payload written out. -/
theorem encPacksTheMessage : Obligations.EncPacksTheMessage := by
  refine ⟨decode_encode (i := .enc) rfl, fun s => ?_⟩
  rw [exec_eq_next]
  dsimp only
  split
  next hreserved =>
    rw [commandRegs_enc_reserved ((isReservedType_iff _).2 hreserved)]
    rfl
  next hdefined =>
    rw [commandRegs_enc_accepted (isReservedType_eq_false_of_le (by omega)), encodeFrame, framePayload_eq]
    rfl

/-- Settles O20: byte 0 of the payload is the switch register's byte. -/
theorem encPayloadByteIsStrict : Obligations.EncPayloadByteIsStrict := by
  intro s ht
  refine ⟨_, exec_eq_next .enc s, ?_⟩
  rw [State.withRegs_regs, commandRegs_enc_accepted (isReservedType_eq_false_of_le ht)]
  exact (framePayload_zero _ _).trans (bitByte_eq_ite _)

/-- Settles O21: the frame of a defined type meets the frame's invariant. -/
theorem encIdentifiersAreInRange : Obligations.EncIdentifiersAreInRange := by
  intro s ht
  have hdefined : isReservedType s.regs.operands.inType = false := isReservedType_eq_false_of_le ht
  obtain ⟨-, hid, htype⟩ := encodeFrame_inv hdefined
  refine ⟨_, exec_eq_next .enc s, ?_⟩
  rw [State.withRegs_regs, commandRegs_enc_accepted hdefined]
  exact ⟨hid, typeOf_toNat _ ▸ htype⟩

/-! ### DEC -/

/-- Settles O23: the message by its shift and masks, and TERR by the identifier modulo 8. -/
theorem decSplitsTheIdentifier : Obligations.DecSplitsTheIdentifier := by
  refine ⟨decode_encode (i := .dec) rfl, fun s => ?_⟩
  rw [exec_eq_next, commandRegs, decodeMessage_eq, typeStatus_eq_ite, typeOf_toNat]
  rfl

/-- Settles O24: DEC goes on for every identifier, and the types 4 to 7 are the reserved ones. -/
theorem decReportsReservedTypesAndIsPermissive : Obligations.DecReportsReservedTypesAndIsPermissive := by
  refine fun s => ⟨_, exec_eq_next .dec s, bne_iff_ne, fun htype => ⟨?_, typeOf_toNat _⟩⟩
  have hle : 4 ≤ s.regs.operands.inId.toNat % 8 := by
    simp only [List.mem_cons, List.not_mem_nil, or_false] at htype
    omega
  exact (isReservedType_iff _).2 (typeOf_toNat _ ▸ hle)

/-! ### ENC and DEC -/

/-- Settles O25: DEC splits the identifier ENC joined and reads the strict byte as the bit, and the other way round. -/
theorem encodeDecodeRoundTrip : Obligations.EncodeDecodeRoundTrip := by
  constructor
  · rintro ⟨r, _, _, hd, rx, m⟩ n b1 b2 b3 b4 b5 b6 b7 ty sw rfl hty
    have hdefined : isReservedType ty = false := isReservedType_eq_false_of_le hty
    have hpayload := run_writes hd rx m 4 (hostInputs (pseudoEncode n (typeByte ty) (bitByte sw)))
      [(0x11, b1), (0x12, b2), (0x13, b3), (0x14, b4), (0x15, b5), (0x16, b6), (0x17, b7)] r (by simp)
    obtain ⟨r₁, henc, hframe⟩ := exists_run_pseudoEncode _ hd rx m n hdefined sw
    obtain ⟨r₂, hdec, hmessage, hstatus⟩ := exists_run_pseudoDecode r₁ hd rx m r₁.frame.outId r₁.frame.outD[0]
    rw [← bitByte_eq_ite]
    refine ⟨_, hpayload.trans henc, _, hdec, ?_⟩
    rw [hmessage, hstatus, hframe]
    simp only [nodeOf_encodeId, typeOf_encodeId, framePayload_zero, bitByte_bne_zero, typeStatus, hdefined, and_self]
  · rintro ⟨r, _, _, hd, rx, m⟩ ident b0 rfl hbit hb0
    obtain ⟨r₁, hdec, hmessage, -⟩ := exists_run_pseudoDecode r hd rx m ident b0
    have hdefined : isReservedType r₁.message.outType = false := by rw [hmessage, isReservedType_typeOf, hbit]
    obtain ⟨r₂, henc, hframe⟩ := exists_run_pseudoEncode r₁ hd rx m r₁.message.outNode hdefined r₁.message.outSw
    rw [← lowByte_eq_setWidth, ← highByte_eq_setWidth]
    refine ⟨_, hdec, _, henc, ?_⟩
    dsimp only
    rw [hframe, hmessage]
    exact ⟨encodeId_nodeOf_typeOf ident, (framePayload_zero _ _).trans (bitByte_bne_zero_of_strict hb0)⟩

/-- Settles O26: the frame, the message and the error bits are functions of the operands named, a rejected ENC keeping the frame. -/
theorem codecResultsDependOnlyOnTheirOperands : Obligations.CodecResultsDependOnlyOnTheirOperands := by
  intro s s' t t'
  constructor
  · intro ht ht' hnode htype hsw hd hframe
    obtain rfl := Host.Outcome.next.inj ((exec_eq_next .enc s).symm.trans ht)
    obtain rfl := Host.Outcome.next.inj ((exec_eq_next .enc s').symm.trans ht')
    simp only [State.withRegs_regs, commandRegs, encRegs_frame, encRegs_status]
    rw [encodeFrame_congr hnode htype hsw hd, htype, hframe]
    exact ⟨rfl, rfl⟩
  · intro ht ht' hid hd
    obtain rfl := Host.Outcome.next.inj ((exec_eq_next .dec s).symm.trans ht)
    obtain rfl := Host.Outcome.next.inj ((exec_eq_next .dec s').symm.trans ht')
    exact ⟨decodeMessage_congr hid hd, congrArg (fun ident => typeStatus (typeOf ident)) hid⟩

/-- Settles O27: the register at an offset outside those listed is none that the command writes. -/
theorem codecCommandsKeepEveryOtherByte : Obligations.CodecCommandsKeepEveryOtherByte := by
  refine fun s => ⟨⟨_, exec_eq_next .enc s, fun off hstatus hidl hidh hpayload => ?_, ?_⟩,
    _, exec_eq_next .dec s, fun off hstatus hmessage => ?_, readByte_status_slotBits rfl⟩
  · refine readByte_congr fun reg hoff => ?_
    subst hoff
    refine readReg_commandRegs_enc s.regs ?_ ?_ ?_ fun i => ?_ <;> rintro rfl
    · exact hstatus rfl
    · exact hidl rfl
    · exact hidh rfl
    · rw [regOffset_outD_toNat] at hpayload
      omega
  · exact readByte_status_slotBits (commandRegs_slots (by decide) (by decide) (by decide) s.regs)
  · refine readByte_congr fun reg hoff => ?_
    subst hoff
    refine readReg_commandRegs_dec s.regs ?_ ?_ ?_ ?_ <;> rintro rfl
    · exact hstatus rfl
    · exact hmessage (by decide)
    · exact hmessage (by decide)
    · exact hmessage (by decide)

end Sys2Proof.Machine
end

section
/-! The control commands (41_control.md): what INIT leaves, and the reset input that the start-up order drives before it (70_reset_and_hazards.md
R170, R173). -/

namespace Sys2Proof.Machine

/-! ### INIT -/

/-- INIT computes nothing from what it clears, so a second one finds it cleared (R111). -/
@[simp] theorem commandRegs_init_init (r : Regs) : commandRegs .init (commandRegs .init r) = commandRegs .init r := rfl

/-- What INIT clears holds 0 after reset too (R112). -/
@[simp] theorem commandRegs_init_reset : commandRegs .init Regs.reset = Regs.reset := rfl

/-- A slot file as reset and INIT leave it accepts no identifier (R111): neither slot is valid. -/
theorem accept_slotFile_reset (ident : Ident) : accept SlotFile.reset ident = false := by
  simp [accept, hit1, hit2, SlotFile.reset]

/-! ### The reset input -/

/-- Asserting the reset input, and releasing it, restores every register (R170). -/
theorem setResetPin_of_asserted {level : Bool} {s : State} (h : level = true ∨ s.resetAsserted = true) :
    setResetPin level s = (s.withRegs Regs.reset).withResetAsserted level :=
  if_pos (Bool.or_eq_true_iff.2 h)

/-- A run whose first act asserts or releases the reset input. -/
theorem run_resetPin {level asserted : Bool} (h : level = true ∨ asserted = true) (k : Nat) (r : Regs) (rest : List Input)
    (hd : Option Byte) (rx : Option RxAnswer) (n : Nat) :
    runSteps (k + 1) ⟨r, .resetPin level :: rest, asserted, hd, rx, n⟩ = runSteps k ⟨Regs.reset, rest, level, hd, rx, n⟩ :=
  run_of_next (s := ⟨r, .resetPin level :: rest, asserted, hd, rx, n⟩)
    (congrArg Host.Outcome.next (setResetPin_of_asserted (s := ⟨r, rest, asserted, hd, rx, n⟩) h)) k

end Sys2Proof.Machine
end

section
/-! Proofs of the statements on the control commands (41_control.md): NOP, INIT, and INIT beside reset. -/

namespace Sys2Proof.Machine

/-- Settles O29: NOP is a change of the error bits alone. -/
theorem nopClearsTheErrorBits : Obligations.NopClearsTheErrorBits :=
  ⟨decode_encode (i := .nop) rfl, fun s => exec_eq_next .nop s⟩

/-- Settles O30: the registers INIT leaves are kept by a second INIT, and their slot file, which is all the acceptance reads, has no valid slot. -/
theorem initClearsTheSlotFile : Obligations.InitClearsTheSlotFile := by
  refine ⟨decode_encode (i := .init) rfl, fun s => ⟨_, exec_eq_next .init s, rfl, ?_, fun r hslots ident => ?_⟩⟩
  · rw [exec_eq_next, State.withRegs_regs, commandRegs_init_init]
    rfl
  · calc (rxPort r ident).accept = accept r.slots ident := rfl
      _ = accept SlotFile.reset ident := congrArg (accept · ident) hslots
      _ = false := accept_slotFile_reset ident

/-- Settles O31: the groups INIT writes take their reset values, the other three are none that INIT writes. -/
theorem initAgreesWithResetOnTheSlotFile : Obligations.InitAgreesWithResetOnTheSlotFile := fun s =>
  ⟨_, exec_eq_next .init s, rfl, rfl, rfl, commandRegs_operands .init s.regs, commandRegs_frame (by decide) s.regs,
    commandRegs_message (by decide) s.regs⟩

/-- Settles O18: the pulse restores every register on both its edges, and INIT keeps the reset registers. -/
theorem startUpLeavesTheResetRegisters : Obligations.StartUpLeavesTheResetRegisters := by
  rintro ⟨r, _, asserted, hd, rx, n⟩
  calc runSteps 3 ⟨r, startUp [], asserted, hd, rx, n⟩
    _ = runSteps 2 ⟨Regs.reset, [.resetPin false, .host (lineCmd .init)], true, hd, rx, n⟩ := run_resetPin (.inl rfl) ..
    _ = runSteps 1 ⟨Regs.reset, [.host (lineCmd .init)], false, hd, rx, n⟩ := run_resetPin (.inr rfl) ..
    _ = .next ⟨commandRegs .init Regs.reset, [], false, hd, rx, n⟩ := run_lineCmd Regs.reset hd rx n rfl
    _ = .next ⟨State.reset.regs, [], false, hd, rx, n⟩ := by rw [commandRegs_init_reset]; rfl

end Sys2Proof.Machine
end

section
/-! The acceptance filters (42_filter.md): what a filter command does to the slot file and what it keeps, which identifiers a pair matches, and
the runs of the host's lines for a filter command. Later proofs ask here, and do not unfold slot placement or acceptance. -/

namespace Sys2Proof.Machine

/-! ### A filter command -/

/-- The filter command of a mode: FFIRST where `first`, else FSTRICT. -/
def filterInstr (first : Bool) : Instr := if first then .ffirst else .fstrict

/-- The byte of a filter command decodes to it (30_encoding.md R71). -/
theorem decode_filterByte (first : Bool) : decode (Spec.filterByte first) = filterInstr first := by
  cases first
  · exact decode_encode (i := .fstrict) rfl
  · exact decode_encode (i := .ffirst) rfl

/-- The two filter commands differ in the mask alone (42_filter.md R124). -/
theorem commandRegs_filterInstr (first : Bool) (r : Regs) :
    commandRegs (filterInstr first) r = filterRegs (Spec.filterMask first) r := by
  cases first <;> rfl

/-- Slot placement is PlaceFilter (R120). -/
theorem placeFilter_eq_slotsAfterPlace (sf : SlotFile) (f m : Ident) : placeFilter sf f m = Spec.slotsAfterPlace sf f m := by
  obtain ⟨fslot, slot1, slot2⟩ := sf
  cases fslot <;> rfl

/-- A filter command by its pseudocode (R121): a reserved type is rejected, a defined one places the pair. -/
theorem next_filterRegs_eq_ite (m : Ident) (s : State) :
    Host.Outcome.next (φ := Fault) (ρ := Refusal) (s.withRegs (filterRegs m s.regs)) =
      if 4 ≤ s.regs.operands.inType.toNat then
        .next (s.withRegs (s.regs.withStatus { terr := true, cerr := false }))
      else
        .next (s.withRegs ((s.regs.withSlots (Spec.slotsAfterPlace s.regs.slots
          (Spec.headerId s.regs.operands.inNode s.regs.operands.inType) m)).withStatus { terr := false, cerr := false })) := by
  split
  next hreserved => rw [filterRegs_reserved m ((isReservedType_iff _).2 hreserved)]
  next hdefined =>
    rw [filterRegs_accepted m (isReservedType_eq_false_of_le (by omega)), placeFilter_eq_slotsAfterPlace]
    rfl

/-! ### What a filter command keeps -/

/-- From FSLOT = 1 on, slot 1 and FSLOT stay, whether the type is defined or not (R120). -/
theorem filterRegs_slot1_of_fslot_set (m : Ident) {r : Regs} (hf : r.slots.fslot = true) :
    (filterRegs m r).slots.slot1 = r.slots.slot1 ∧ (filterRegs m r).slots.fslot = true := by
  cases ht : isReservedType r.operands.inType with
  | false => simp [filterRegs_slots_of_fslot_set m ht hf]
  | true => simp [filterRegs_reserved m ht, hf]

/-- While FSLOT = 0, slot 2 stays (R120). -/
theorem filterRegs_slot2_of_fslot_clear (m : Ident) {r : Regs} (hf : r.slots.fslot = false) :
    (filterRegs m r).slots.slot2 = r.slots.slot2 := by
  cases ht : isReservedType r.operands.inType with
  | false => simp [filterRegs_slots_of_fslot_clear m ht hf]
  | true => simp [filterRegs_reserved m ht]

/-- A filter command keeps every register but STATUS and those of the slots (R123). -/
theorem readReg_filterRegs (m : Ident) (r : Regs) {reg : Reg} (hstatus : reg ≠ .status)
    (hslots : ¬(0x28 ≤ (regOffset reg).toNat ∧ (regOffset reg).toNat ≤ 0x2F)) :
    readReg (filterRegs m r) reg = readReg r reg := by
  obtain ⟨hoperands, hframe, hmessage, hmres⟩ := filterRegs_frame m r
  cases reg with
  | status => exact absurd rfl hstatus
  | f1l | f1h | m1l | m1h | f2l | f2h | m2l | m2h => exact absurd (by decide) hslots
  | _ => simp only [readReg, hoperands, hframe, hmessage, hmres]

/-- The offsets of slot 1's registers (10_state.md R22). -/
theorem slot1Offset_cases (off : Offset) (hlo : 0x28 ≤ off.toNat) (hhi : off.toNat ≤ 0x2B) :
    off = regOffset .f1l ∨ off = regOffset .f1h ∨ off = regOffset .m1l ∨ off = regOffset .m1h := by
  revert off; decide

/-- The offsets of slot 2's registers (R22). -/
theorem slot2Offset_cases (off : Offset) (hlo : 0x2C ≤ off.toNat) (hhi : off.toNat ≤ 0x2F) :
    off = regOffset .f2l ∨ off = regOffset .f2h ∨ off = regOffset .m2l ∨ off = regOffset .m2h := by
  revert off; decide

/-- The bytes of slot 1's registers show slot 1 alone (R35). -/
theorem readByte_slot1_congr {r r' : Regs} (h : r'.slots.slot1 = r.slots.slot1) {off : Offset} (hlo : 0x28 ≤ off.toNat)
    (hhi : off.toNat ≤ 0x2B) : readByte r' off = readByte r off := by
  obtain rfl | rfl | rfl | rfl := slot1Offset_cases off hlo hhi <;> simp only [readByte_regOffset, readReg, h]

/-- The bytes of slot 2's registers show slot 2 alone (R35). -/
theorem readByte_slot2_congr {r r' : Regs} (h : r'.slots.slot2 = r.slots.slot2) {off : Offset} (hlo : 0x2C ≤ off.toNat)
    (hhi : off.toNat ≤ 0x2F) : readByte r' off = readByte r off := by
  obtain rfl | rfl | rfl | rfl := slot2Offset_cases off hlo hhi <;> simp only [readByte_regOffset, readReg, h]

/-! ### Which identifiers a pair matches -/

/-- The strict mask compares every bit, so it matches the filter alone (42_filter.md R122). -/
theorem identMatches_strictMask_iff (f ident : Ident) : identMatches f strictMask ident = true ↔ ident = f := by
  have hmask : ∀ k < 11, strictMask.getLsbD k = true := by decide
  rw [identMatches_iff]
  constructor
  · exact fun h => BitVec.eq_of_getLsbD_eq fun k hk => h k hk (hmask k hk)
  · rintro rfl _ _ _
    rfl

/-- The first-bit mask compares bit 10 and bits 2:0 (30_encoding.md R77). -/
theorem identMatches_firstBitMask_iff (f ident : Ident) :
    identMatches f firstBitMask ident = true ↔ ∀ k < 11, k < 3 ∨ k = 10 → ident.getLsbD k = f.getLsbD k := by
  have hmask : ∀ k < 11, firstBitMask.getLsbD k = true ↔ k < 3 ∨ k = 10 := by decide
  rw [identMatches_iff]
  exact forall₂_congr fun k hk => by rw [hmask k hk]

/-- The compared bits of the first-bit mask as fields: the type and the top bit of the node. -/
theorem identMatches_firstBitMask_iff_fields (f ident : Ident) :
    identMatches f firstBitMask ident = true ↔ ident.getLsbD 10 = f.getLsbD 10 ∧ typeOf ident = typeOf f := by
  rw [identMatches_firstBitMask_iff]
  constructor
  · intro h
    refine ⟨h 10 (by decide) (.inr rfl), BitVec.eq_of_getLsbD_eq fun k hk => ?_⟩
    simpa [typeOf, hk] using h k (by omega) (.inl hk)
  · rintro ⟨htop, htype⟩ k hk (hlow | rfl)
    · simpa [typeOf, hlow] using congrArg (fun t : TypeBits => t.getLsbD k) htype
    · exact htop

/-- The compared bits of the first-bit mask as numbers. -/
theorem identMatches_firstBitMask_iff_toNat (f ident : Ident) :
    identMatches f firstBitMask ident = true ↔ ident.toNat / 1024 = f.toNat / 1024 ∧ ident.toNat % 8 = f.toNat % 8 := by
  have hident := ident.isLt
  have hf := f.isLt
  rw [identMatches_firstBitMask_iff_fields, ← BitVec.testBit_toNat, ← BitVec.testBit_toNat, Nat.testBit_eq_decide_div_mod_eq,
    Nat.testBit_eq_decide_div_mod_eq, decide_eq_decide, ← BitVec.toNat_inj, typeOf_toNat, typeOf_toNat]
  omega

/-- Filters that agree on bit 10 and bits 2:0 match the same identifiers under the first-bit mask (42_filter.md R126). -/
theorem identMatches_firstBitMask_congr {f f' : Ident} (h : ∀ k < 11, k < 3 ∨ k = 10 → f.getLsbD k = f'.getLsbD k)
    (ident : Ident) : identMatches f firstBitMask ident = identMatches f' firstBitMask ident := by
  rw [Bool.eq_iff_iff, identMatches_firstBitMask_iff, identMatches_firstBitMask_iff]
  exact forall₃_congr fun k hk hcompared => by rw [h k hk hcompared]

/-- The numbers below 2048 with the top bit and the type of `c` are those in steps of 8 from one of them on, 128 in all. -/
theorem count_sameTopBitAndType {c : Nat} (hc : c < 2048) :
    Nat.count (fun x => x / 1024 = c / 1024 ∧ x % 8 = c % 8) 2048 = 128 := by
  have himage : (Finset.range 2048).filter (fun x => x / 1024 = c / 1024 ∧ x % 8 = c % 8) =
      (Finset.range 128).image (fun j => 1024 * (c / 1024) + 8 * j + c % 8) := by
    ext x
    simp only [Finset.mem_filter, Finset.mem_range, Finset.mem_image]
    constructor
    · rintro ⟨hx, htop, htype⟩
      exact ⟨x % 1024 / 8, by omega, by omega⟩
    · rintro ⟨j, hj, rfl⟩
      omega
  rw [Nat.count_eq_card_filter_range, himage, Finset.card_image_of_injective, Finset.card_range]
  intro i j hij
  simp only at hij
  omega

/-- A first-bit pair matches 128 of the 2048 identifiers (R124): bits 9:3 are free. -/
theorem countP_identMatches_firstBitMask (f : Ident) :
    (List.range 2048).countP (fun x => identMatches f firstBitMask (BitVec.ofNat 11 x)) = 128 := by
  rw [← count_sameTopBitAndType f.isLt, Nat.count]
  refine List.countP_congr fun x hx => ?_
  have hlt : x < 2048 := List.mem_range.1 hx
  rw [identMatches_firstBitMask_iff_toNat, BitVec.toNat_ofNat, Nat.mod_eq_of_lt hlt, decide_eq_true_iff]

/-! ### Acceptance -/

/-- The receive port's answer depends on the two slots alone (42_filter.md R131). -/
theorem rxPort_congr {r r' : Regs} {ident : Ident} (h1 : slotHit r.slots.slot1 ident = slotHit r'.slots.slot1 ident)
    (h2 : slotHit r.slots.slot2 ident = slotHit r'.slots.slot2 ident) : rxPort r ident = rxPort r' ident := by
  simp only [rxPort, accept, hit1, hit2, h1, h2]

/-- After one accepted filter command on the empty slot file, the port accepts what the pair placed matches. -/
theorem rxPort_accept_filterRegs (m : Ident) {r : Regs} (hslots : r.slots = SlotFile.reset) (ht : r.operands.inType.toNat ≤ 3)
    (ident : Ident) : (rxPort (filterRegs m r) ident).accept = identMatches (filterValue r.operands) m ident := by
  have hplaced := filterRegs_slots_of_fslot_clear m (isReservedType_eq_false_of_le ht) (congrArg SlotFile.fslot hslots)
  have hempty : r.slots.slot2 = Slot.empty := congrArg SlotFile.slot2 hslots
  simp only [rxPort, accept, hit1, hit2, hplaced, hempty, slotHit_configured, slotHit_empty, Bool.or_false]

/-! ### Runs of filter commands -/

/-- The header operands replaced (10_state.md R26, R27). -/
def Regs.withHeader (r : Regs) (n : Byte) (t : TypeBits) : Regs :=
  r.withOperands { r.operands with inNode := n, inType := t }

/-- The registers after the host's acts for a filter command on the header (n, t). -/
def filterActsRegs (first : Bool) (n : Byte) (t : TypeBits) (r : Regs) : Regs :=
  filterRegs (Spec.filterMask first) (r.withHeader n t)

/-- The host's acts for a filter command set the header and perform it (30_encoding.md R79). -/
theorem run_filterActs (k : Nat) (first : Bool) (n : Byte) (t : TypeBits) (r : Regs) (rest : List Input) (hd : Option Byte)
    (rx : Option RxAnswer) (m : Nat) :
    runSteps (k + 3) ⟨r, Spec.filterActs first n t ++ rest, false, hd, rx, m⟩ =
      runSteps k ⟨filterActsRegs first n t r, rest, false, hd, rx, m⟩ := by
  have hheader : writeByte (writeByte r 0x04 n) 0x05 (typeByte t) = r.withHeader n t :=
    congrArg (fun ty => r.withHeader n ty) (extractLsb'_typeByte t)
  have hwrites := run_writes hd rx m (k + 1) (.host (.write 0x00 [Spec.filterByte first]) :: rest)
    [(0x04, n), (0x05, typeByte t)] r (by simp)
  refine hwrites.trans ?_
  simp only [List.foldl_cons, List.foldl_nil, hheader]
  rw [filterActsRegs, ← commandRegs_filterInstr]
  exact run_command (decode_filterByte first) (exec_eq_next _ _) k

/-- The acts for a filter command on a defined type place the header's pair (42_filter.md R120). -/
theorem filterActsRegs_slots (first : Bool) (n : Byte) {t : TypeBits} (ht : t.toNat ≤ 3) (r : Regs) :
    (filterActsRegs first n t r).slots = placeFilter r.slots (encodeId n t) (Spec.filterMask first) := by
  rw [filterActsRegs, filterRegs_accepted _ (isReservedType_eq_false_of_le ht)]
  rfl

/-- From FSLOT = 0, the second of three placements is held nowhere after the third (R129). -/
theorem placeFilter_three {sf : SlotFile} (h : sf.fslot = false) (fa ma fb mb fc mc : Ident) :
    placeFilter (placeFilter (placeFilter sf fa ma) fb mb) fc mc =
      { fslot := true, slot1 := configuredSlot fa ma, slot2 := configuredSlot fc mc } := by
  simp [placeFilter, h]

section ThreeFilters
variable (fa fb fc : Bool) (na nb nc : Byte) (ta tb tc : TypeBits) (r : Regs)

/-- The registers after the host's acts for three filter commands, on the headers A, B and C in this order. -/
def threeFiltersRegs : Regs := filterActsRegs fc nc tc (filterActsRegs fb nb tb (filterActsRegs fa na ta r))

/-- The nine acts for three filter commands go on, three by three. -/
theorem run_threeFilters (hd : Option Byte) (rx : Option RxAnswer) (m : Nat) :
    runSteps 9 ⟨r, Spec.filterActs fa na ta ++ Spec.filterActs fb nb tb ++ Spec.filterActs fc nc tc, false, hd, rx, m⟩ =
      .next ⟨threeFiltersRegs fa fb fc na nb nc ta tb tc r, [], false, hd, rx, m⟩ := by
  rw [List.append_assoc, ← List.append_nil (Spec.filterActs fc nc tc)]
  exact (run_filterActs 6 fa na ta r _ hd rx m).trans <|
    (run_filterActs 3 fb nb tb _ _ hd rx m).trans (run_filterActs 0 fc nc tc _ [] hd rx m)

/-- Three filter commands on defined types, from FSLOT = 0, leave A's pair in slot 1 and C's in slot 2 (R129). -/
theorem threeFiltersRegs_slots (hf : r.slots.fslot = false) (ha : ta.toNat ≤ 3) (hb : tb.toNat ≤ 3) (hc : tc.toNat ≤ 3) :
    (threeFiltersRegs fa fb fc na nb nc ta tb tc r).slots =
      { fslot := true
        slot1 := configuredSlot (encodeId na ta) (Spec.filterMask fa)
        slot2 := configuredSlot (encodeId nc tc) (Spec.filterMask fc) } := by
  rw [threeFiltersRegs, filterActsRegs_slots fc nc hc, filterActsRegs_slots fb nb hb, filterActsRegs_slots fa na ha,
    placeFilter_three hf]

end ThreeFilters

/-! ### A query of the receive path -/

/-- A step whose next act is a query. -/
theorem step_query (s : State) (f : RxFrame) (rest : List Input) :
    step (s.withInputs (.query f :: rest)) = answerQuery f s.regs (s.withInputs rest) := rfl

end Sys2Proof.Machine
end

section
/-! Proofs of the statements on the acceptance filters (42_filter.md): FSTRICT, FFIRST and MATCH, which identifiers the filters accept, and the
receive port. -/

namespace Sys2Proof.Machine

/-! ### The commands -/

/-- Settles O34: a filter command's pseudocode under the strict mask. -/
theorem fstrictPlacesAStrictFilter : Obligations.FstrictPlacesAStrictFilter :=
  ⟨decode_encode (i := .fstrict) rfl, fun s => (exec_eq_next .fstrict s).trans (next_filterRegs_eq_ite strictMask s)⟩

/-- Settles O35: a filter command's pseudocode under the first-bit mask. -/
theorem ffirstPlacesAFirstBitFilter : Obligations.FfirstPlacesAFirstBitFilter :=
  ⟨decode_encode (i := .ffirst) rfl, fun s => (exec_eq_next .ffirst s).trans (next_filterRegs_eq_ite firstBitMask s)⟩

/-- Settles O36: the register at an offset outside those listed is none that a filter command writes, and the slot not selected stays. -/
theorem filterCommandsKeepEverythingElse : Obligations.FilterCommandsKeepEverythingElse := by
  intro s first
  obtain ⟨hoperands, hframe, hmessage, hmres⟩ := filterRegs_frame (Spec.filterMask first) s.regs
  refine ⟨s.withRegs (filterRegs (Spec.filterMask first) s.regs), ?_, fun off hstatus hslots => readByte_congr fun reg hoff => ?_,
    fun off hf => ?_, fun off hf => ?_, filterRegs_slot1_of_fslot_set _, filterRegs_slot2_of_fslot_clear _,
    hoperands, hframe, hmessage, hmres, rfl, rfl, rfl, rfl, rfl⟩
  · rw [decode_filterByte, exec_eq_next, commandRegs_filterInstr]
  · subst hoff
    exact readReg_filterRegs _ s.regs (fun h => hstatus (h ▸ rfl)) hslots
  · exact readByte_slot1_congr (filterRegs_slot1_of_fslot_set _ hf).1
  · exact readByte_slot2_congr (filterRegs_slot2_of_fslot_clear _ hf)

/-- Settles O37: MATCH's result is the hits of the two slots. -/
theorem matchAppliesTheSlotFile : Obligations.MatchAppliesTheSlotFile :=
  ⟨decode_encode (i := .matchIdent) rfl, fun s => ⟨matchResult s.regs.slots s.regs.operands.inId,
    exec_eq_next .matchIdent s, slotHit_iff _ _, slotHit_iff _ _, rfl⟩⟩

/-! ### One filter -/

/-- Settles O39: the strict pair matches its filter alone, and a flipped bit gives another identifier. -/
theorem strictFilterAcceptsOneIdentifier : Obligations.StrictFilterAcceptsOneIdentifier := by
  intro s hslots ht
  have haccept (ident : Ident) : (rxPort (filterRegs strictMask s.regs) ident).accept = true ↔ ident = filterValue s.regs.operands := by
    rw [rxPort_accept_filterRegs strictMask hslots ht, identMatches_strictMask_iff]
  refine ⟨_, exec_eq_next .fstrict s, haccept, fun k hk => Bool.eq_false_of_not_eq_true fun hflip => ?_⟩
  have hbit : ∀ k < 11, (1#11 <<< k) ≠ 0#11 := by decide
  exact hbit k hk ((BitVec.xor_right_inj _).1 (((haccept _).1 hflip).trans BitVec.xor_zero.symm))

/-- Settles O40: the first-bit pair compares the type and bit 10, which is the node's bit 7. -/
theorem firstBitFilterComparesTopBitAndType : Obligations.FirstBitFilterComparesTopBitAndType := by
  intro s hslots ht
  refine ⟨_, exec_eq_next .ffirst s, fun n' t' => ?_⟩
  have htop (n : Byte) (t : TypeBits) : (encodeId n t).getLsbD 10 = n.getLsbD 7 := encodeId_getLsbD n t 10
  calc (rxPort (filterRegs firstBitMask s.regs) (encodeId n' t')).accept = true
    _ ↔ identMatches (filterValue s.regs.operands) firstBitMask (encodeId n' t') = true := by
      rw [rxPort_accept_filterRegs firstBitMask hslots ht]
    _ ↔ n'.getLsbD 7 = s.regs.operands.inNode.getLsbD 7 ∧ t' = s.regs.operands.inType := by
      rw [identMatches_firstBitMask_iff_fields, filterValue, htop, htop, typeOf_encodeId, typeOf_encodeId]

/-- Settles O41: the identifiers accepted are those the pair placed matches. -/
theorem firstBitFilterAcceptsHundredTwentyEight : Obligations.FirstBitFilterAcceptsHundredTwentyEight := by
  intro s hslots ht
  refine ⟨_, exec_eq_next .ffirst s, ?_⟩
  rw [← countP_identMatches_firstBitMask (filterValue s.regs.operands)]
  exact congrArg (List.countP · _) (funext fun x => rxPort_accept_filterRegs firstBitMask hslots ht (BitVec.ofNat 11 x))

/-- Settles O42: both branches of slot placement store the whole filter value, and a first-bit slot's hit reads the compared bits alone. -/
theorem uncomparedFilterBitsTakeNoPart : Obligations.UncomparedFilterBitsTakeNoPart := by
  constructor
  · intro s ht
    have hdefined : isReservedType s.regs.operands.inType = false := isReservedType_eq_false_of_le ht
    refine ⟨_, exec_eq_next .ffirst s, ?_⟩
    rw [State.withRegs_regs, commandRegs]
    split
    next hf => exact congrArg (·.slot2.filter) (filterRegs_slots_of_fslot_set firstBitMask hdefined hf)
    next hf =>
      exact congrArg (·.slot1.filter) (filterRegs_slots_of_fslot_clear firstBitMask hdefined (Bool.eq_false_of_not_eq_true hf))
  · rintro r ⟨v, f, _⟩ ⟨_, f', _⟩ ident rfl rfl rfl hbits
    have hhit : slotHit ⟨v, f, firstBitMask⟩ ident = slotHit ⟨v, f', firstBitMask⟩ ident :=
      congrArg (v && ·) (identMatches_firstBitMask_congr hbits ident)
    exact ⟨rxPort_congr hhit rfl, rxPort_congr rfl hhit⟩

/-! ### Three filters -/

/-- Settles O43: each three acts place one pair, the first in slot 1 and every later one in slot 2. -/
theorem threeFilterCommandsLeaveFirstAndThird : Obligations.ThreeFilterCommandsLeaveFirstAndThird := by
  rintro ⟨r, _, _, hd, rx, m⟩ fa fb fc na nb nc ta tb tc rfl hslots ha hb hc
  have hplaced := threeFiltersRegs_slots fa fb fc na nb nc ta tb tc r (congrArg SlotFile.fslot hslots) ha hb hc
  refine ⟨_, run_threeFilters fa fb fc na nb nc ta tb tc r hd rx m, hplaced, fun ident => ?_⟩
  rw [rxPort_accept_iff, hplaced]
  rfl

/-! ### The receive port -/

/-- Settles O44: the answer is the port's on the registers the query leaves. -/
theorem receivePortAnswersFromTheSlotFile : Obligations.ReceivePortAnswersFromTheSlotFile := fun s rxId rest =>
  ⟨rxPort s.regs rxId, step_query s (.standard rxId) rest, slotHit_iff _ _, slotHit_iff _ _, rfl, rfl⟩

/-- Settles O45: the answer is that of the reset registers, whose slots are empty. -/
theorem emptySlotsAcceptNothing : Obligations.EmptySlotsAcceptNothing := by
  intro r hslots ident
  have hreset : rxPort r ident = rxPort State.reset.regs ident := rxPort_congr (by rw [hslots]) (by rw [hslots])
  rw [hreset]
  exact ⟨accept_slotFile_reset ident, slotHit_empty ident, slotHit_empty ident⟩

end Sys2Proof.Machine
end

section
/-! The error bits (60_exceptions.md R150): what each command reports in them, by its CMD byte, and that an operand write keeps them. -/

namespace Sys2Proof.Machine

/-- CERR reports the commands that are not legal, and no other (R150). -/
theorem commandRegs_cerr_iff (i : Instr) (r : Regs) : (commandRegs i r).status.cerr = true ↔ i.legal = false := by
  have hreports (t : TypeBits) : ¬ (typeStatus t).cerr = true := Bool.noConfusion
  cases i with
  | enc => exact iff_of_false (encRegs_status r ▸ hreports _) Bool.noConfusion
  | fstrict => exact iff_of_false (filterRegs_status strictMask r ▸ hreports _) Bool.noConfusion
  | ffirst => exact iff_of_false (filterRegs_status firstBitMask r ▸ hreports _) Bool.noConfusion
  | nop | dec | init | matchIdent => exact iff_of_false Bool.noConfusion Bool.noConfusion
  | _ => exact iff_of_true rfl rfl

/-- TERR after a legal command is bit 2 of the type that it used, and 0 where it used none (R150). -/
theorem commandRegs_terr_of_legal {i : Instr} (h : i.legal = true) (r : Regs) :
    (commandRegs i r).status.terr = (if (encode i).toNat ∈ [1, 4, 5] then r.operands.inType.getLsbD 2
      else if (encode i).toNat = 2 then r.operands.inId.getLsbD 2 else false) := by
  cases i with
  | enc => exact congrArg Status.terr (encRegs_status r)
  | fstrict => exact congrArg Status.terr (filterRegs_status strictMask r)
  | ffirst => exact congrArg Status.terr (filterRegs_status firstBitMask r)
  | dec => exact isReservedType_typeOf r.operands.inId
  | nop | init | matchIdent => rfl
  | _ => cases h

/-- TERR by the CMD byte, the illegal ones included (R150). -/
theorem commandRegs_decode_terr (v : Byte) (r : Regs) :
    (commandRegs (decode v) r).status.terr = (if v.toNat ∈ [1, 4, 5] then r.operands.inType.getLsbD 2
      else if v.toNat = 2 then r.operands.inId.getLsbD 2 else false) := by
  cases hlegal : (decode v).legal with
  | true => simpa only [encode_decode] using commandRegs_terr_of_legal hlegal r
  | false =>
    have hlt : ¬ v.toNat ≤ 6 := fun hle => by simp [(decode_legal_iff v).2 hle] at hlegal
    have htype : v.toNat ∉ [1, 4, 5] := by
      simp only [List.mem_cons, List.not_mem_nil, or_false]
      omega
    rw [commandRegs_of_not_legal hlegal, if_neg htype, if_neg (by omega)]
    rfl

/-- A write to the window other than to CMD keeps the error bits (R150): it writes operands alone. -/
@[simp] theorem writeByte_status (r : Regs) (off : Offset) (v : Byte) : (writeByte r off v).status = r.status := by
  obtain ⟨o, ho⟩ := writeByte_eq_withOperands r off v
  rw [ho, Regs.withOperands_status]

end Sys2Proof.Machine
end

section
/-! Proofs of the statements on errors (60_exceptions.md): the error bits after every command, and the machine with nothing to do. -/

namespace Sys2Proof.Machine

/-- Settles O33: CERR is set by the commands that are not legal, TERR by the type used; an operand write changes operands alone. -/
theorem everyCommandRewritesTheErrorBits : Obligations.EveryCommandRewritesTheErrorBits := by
  constructor
  · intro s v
    refine ⟨_, exec_eq_next (decode v) s, ?_, commandRegs_decode_terr v s.regs, commandRegs_status_inv (decode v) s.regs⟩
    calc (commandRegs (decode v) s.regs).status.cerr = true
      _ ↔ (decode v).legal = false := commandRegs_cerr_iff (decode v) s.regs
      _ ↔ ¬ v.toNat ≤ 6 := by rw [← decode_legal_iff, Bool.not_eq_true]
      _ ↔ 6 < v.toNat := Nat.not_le
  · intro s off v rest hs hcmd
    have hoff : off ≠ 0x00 := fun h => hcmd (h ▸ rfl)
    exact ⟨_, (step_host s (.write off [v]) rest).trans (hostAccess_write v hs hoff), writeByte_status s.regs off v⟩

/-- Settles O7: the step without an act to come. -/
theorem idleMachineHoldsItsState : Obligations.IdleMachineHoldsItsState := fun _ => step_of_inputs_nil

end Sys2Proof.Machine
end

section
/-! Interleaving in host programs (70_reset_and_hazards.md R176): when an order of accesses enters a sequence again, which orders interrupts can
give a program of a foreground and handlers, and that `canInterleave` decides whether one of them does. -/

namespace Sys2Proof.Machine

/-! ### One order of accesses -/

/-- What loading decides of an order is the statements' notion (R176). -/
theorem entersAgain_iff (l : List SequencedAccess) : Spec.entersAgain l ↔ noInterleaving l = false :=
  (noInterleaving_eq_false_iff l).symm

/-- An order enters a sequence again within its tail, or it comes back to the sequence of its first access. -/
theorem entersAgain_cons_iff (a : SequencedAccess) (l : List SequencedAccess) :
    Spec.entersAgain (a :: l) ↔ Spec.entersAgain l ∨
      ∃ (j k : Nat) (b c : SequencedAccess), j < k ∧ l[j]? = some b ∧ l[k]? = some c ∧ b.seq ≠ a.seq ∧ c.seq = a.seq := by
  have hback : (afterSequence a.seq l).all (fun b => b.seq != a.seq) = false ↔ ∃ b ∈ afterSequence a.seq l, b.seq = a.seq := by simp
  rw [entersAgain_iff, noInterleaving, Bool.and_eq_false_iff, hback, mem_afterSequence_iff, ← entersAgain_iff, or_comm]

/-- Accesses added to an order, wherever they stand, do not undo that a sequence is entered again. -/
theorem entersAgain_of_sublist {l l' : List SequencedAccess} (h : l.Sublist l') (hl : Spec.entersAgain l) : Spec.entersAgain l' := by
  obtain ⟨f, hf⟩ := List.sublist_iff_exists_orderEmbedding_getElem?_eq.1 h
  obtain ⟨i, j, k, a, b, c, hij, hjk, ha, hb, hc, hseq⟩ := hl
  exact ⟨f i, f j, f k, a, b, c, f.strictMono hij, f.strictMono hjk, hf i ▸ ha, hf j ▸ hb, hf k ▸ hc, hseq⟩

/-- An order in three parts, with an access of another sequence between two of one. -/
theorem entersAgain_append {l l' l'' : List SequencedAccess} {a b c : SequencedAccess} (ha : a ∈ l) (hb : b ∈ l') (hc : c ∈ l'')
    (hac : a.seq = c.seq) (hba : b.seq ≠ a.seq) : Spec.entersAgain (l ++ (l' ++ l'')) :=
  entersAgain_of_sublist
    ((List.singleton_sublist.2 ha).append ((List.singleton_sublist.2 hb).append (List.singleton_sublist.2 hc)))
    ⟨0, 1, 2, a, b, c, by decide, by decide, rfl, rfl, rfl, hac, hba⟩

/-! ### The accesses of one run -/

/-- The accesses of a run carry its number. -/
theorem piece_of_mem_accessesMade {piece : Nat} {ops : List HostOp} {a : SequencedAccess} (h : a ∈ accessesMade piece ops) :
    a.seq.piece = piece := by
  have hseq : a.seq ∈ (accessesMade piece ops).map (·.seq) := List.mem_map_of_mem h
  rw [map_seq_accessesMade] at hseq
  obtain ⟨n, -, hn⟩ := List.mem_map.1 hseq
  rw [← hn]

/-- The sequence numbers of a piece are those that the accesses of any run of it carry. -/
theorem mem_sequenceNumbers_iff (piece n : Nat) (ops : List HostOp) :
    n ∈ sequenceNumbers ops ↔ ∃ a ∈ accessesMade piece ops, a.seq = ⟨piece, n⟩ := by
  rw [← List.mem_map, map_seq_accessesMade]
  simp

/-- The same access in another run of its piece. -/
def SequencedAccess.inRun (piece : Nat) (a : SequencedAccess) : SequencedAccess := { a with seq := { a.seq with piece := piece } }

/-- Accesses of one run are in one sequence exactly where they are in another run of the piece. -/
theorem SequencedAccess.inRun_seq_eq_iff {a b : SequencedAccess} (piece : Nat) (h : a.seq.piece = b.seq.piece) :
    (a.inRun piece).seq = (b.inRun piece).seq ↔ a.seq = b.seq := by
  obtain ⟨⟨q, n⟩, _⟩ := a
  obtain ⟨⟨q', n'⟩, _⟩ := b
  obtain rfl : q = q' := h
  simp [inRun]

/-- Two runs of a piece make the same accesses but for the number of the run. -/
theorem accessesMade_eq_map_inRun (piece piece' : Nat) (ops : List HostOp) :
    accessesMade piece' ops = (accessesMade piece ops).map (.inRun piece') := by
  induction ops with
  | nil => rfl
  | cons op ops ih => cases op <;> simp [HostOp.made, SequencedAccess.inRun, ih]

/-- Whether a run of a piece enters a sequence of its own again does not depend on the run. -/
theorem entersAgain_accessesMade {piece : Nat} {ops : List HostOp} (piece' : Nat) (h : Spec.entersAgain (accessesMade piece ops)) :
    Spec.entersAgain (accessesMade piece' ops) := by
  obtain ⟨i, j, k, a, b, c, hij, hjk, ha, hb, hc, hac, hba⟩ := h
  have hpiece {n : Nat} {x : SequencedAccess} (hx : (accessesMade piece ops)[n]? = some x) : x.seq.piece = piece :=
    piece_of_mem_accessesMade (List.mem_of_getElem? hx)
  have hrun {n : Nat} {x : SequencedAccess} (hx : (accessesMade piece ops)[n]? = some x) :
      (accessesMade piece' ops)[n]? = some (x.inRun piece') := by
    rw [accessesMade_eq_map_inRun piece, List.getElem?_map, hx, Option.map_some]
  exact ⟨i, j, k, _, _, _, hij, hjk, hrun ha, hrun hb, hrun hc,
    (SequencedAccess.inRun_seq_eq_iff piece' ((hpiece ha).trans (hpiece hc).symm)).2 hac,
    (SequencedAccess.inRun_seq_eq_iff piece' ((hpiece hb).trans (hpiece ha).symm)).not.2 hba⟩

/-! ### The orders that interrupts can give -/

/-- The orders of accesses that some course of events makes from a host: it stops, goes on by an operation, returns from a handler, or begins
one where interrupts are not masked. -/
inductive HostRun.Makes (p : HostProgram) : HostRun → List SequencedAccess → Prop
  | stop (r : HostRun) : Makes p r []
  | go (piece : Nat) (m : Bool) (op : HostOp) (ops : List HostOp) (below : List Activation) (started : Nat) (l : List SequencedAccess) :
    Makes p ⟨⟨piece, ⟨op.maskedAfter m, ops⟩⟩, below, started⟩ l →
      Makes p ⟨⟨piece, ⟨m, op :: ops⟩⟩, below, started⟩ ((op.made piece).toList ++ l)
  | handlerEnd (piece : Nat) (m : Bool) (a : Activation) (below : List Activation) (started : Nat) (l : List SequencedAccess) :
    Makes p ⟨a, below, started⟩ l → Makes p ⟨⟨piece, ⟨m, []⟩⟩, a :: below, started⟩ l
  | interrupt (h : HostCode) (piece : Nat) (ops : List HostOp) (below : List Activation) (started : Nat) (l : List SequencedAccess) :
    h ∈ p.handlers → Makes p ⟨⟨started + 1, h⟩, ⟨piece, ⟨false, ops⟩⟩ :: below, started + 1⟩ l →
      Makes p ⟨⟨piece, ⟨false, ops⟩⟩, below, started⟩ l

/-- Every course of events makes one of these orders. -/
theorem HostRun.makes_order (p : HostProgram) (events : List HostEvent) (r : HostRun) : r.Makes p (r.order p events) := by
  induction events generalizing r with
  | nil => exact .stop r
  | cons e events ih =>
    obtain ⟨⟨piece, m, ops⟩, below, started⟩ := r
    cases e with
    | go =>
      match ops, below with
      | op :: ops, below => exact .go piece m op ops below started _ (ih _)
      | [], a :: below => exact .handlerEnd piece m a below started _ (ih _)
      | [], [] => exact ih _
    | interrupt k =>
      match m, hk : p.handlers[k]? with
      | false, some h =>
        rw [order_interrupt hk]
        exact .interrupt h piece ops below started _ (List.mem_of_getElem? hk) (ih _)
      | true, _ => exact ih _
      | false, none =>
        have hstays : HostRun.interrupt p k ⟨⟨piece, ⟨false, ops⟩⟩, below, started⟩ =
            ⟨⟨piece, ⟨false, ops⟩⟩, below, started⟩ := by
          simp [HostRun.interrupt, hk]
        simpa [HostRun.order, HostRun.made, HostRun.after, hstays] using ih _

/-- Handlers do not matter to a foreground that never unmasks interrupts. -/
theorem order_congr_of_not_interruptible (p p' : HostProgram) (events : List HostEvent) (started : Nat) (a : Activation)
    (h : interruptible a.code.masked a.code.ops = false) :
    HostRun.order p ⟨a, [], started⟩ events = HostRun.order p' ⟨a, [], started⟩ events := by
  induction events generalizing a with
  | nil => rfl
  | cons e events ih =>
    obtain ⟨piece, m, ops⟩ := a
    cases e with
    | go =>
      match ops with
      | [] => exact ih _ h
      | op :: ops => exact congrArg ((op.made piece).toList ++ ·) (ih _ (Bool.or_eq_false_iff.1 h).2)
    | interrupt k =>
      obtain rfl : m = true := by cases ops <;> simp_all [interruptible]
      exact ih _ h

/-- Only the handlers that can run matter to the orders of a program. -/
theorem hostOrder_liveHandlers (p : HostProgram) (events : List HostEvent) :
    hostOrder p events = hostOrder ⟨p.foreground, liveHandlers p⟩ events := by
  cases h : interruptible p.foreground.masked p.foreground.ops with
  | true => rw [liveHandlers, if_pos h]
  | false => exact order_congr_of_not_interruptible p _ events 0 ⟨0, p.foreground⟩ h

/-! ### Handlers that make no access -/

/-- What is left to make of the accesses of the running piece and those below it. -/
def HostRun.left (r : HostRun) : List SequencedAccess := (r.running :: r.below).flatMap (fun a => accessesMade a.piece a.code.ops)

/-- Where no handler makes an access, an order is a first part of what is left. -/
theorem HostRun.Makes.isPrefix_left {p : HostProgram} {r : HostRun} {l : List SequencedAccess} (hl : r.Makes p l)
    (hp : ∀ h ∈ p.handlers, ∀ piece, accessesMade piece h.ops = []) : l <+: r.left := by
  induction hl with
  | stop r => exact List.nil_prefix
  | go piece m op ops below started l _ ih => simpa [HostRun.left] using ih
  | handlerEnd piece m a below started l _ ih => simpa [HostRun.left] using ih
  | interrupt h piece ops below started l hh _ ih => simpa [HostRun.left, hp h hh] using ih

/-! ### Pieces that close their sequences before a handler can run -/

/-- A piece that interleaves none of its own sequences and is open to handlers inside none of them. -/
def HostCode.Closed (c : HostCode) : Prop := ¬ Spec.entersAgain (accessesMade 0 c.ops) ∧ openInside c.masked [] c.ops = false

/-- What is left of such a piece is such a piece. -/
theorem HostCode.Closed.tail {m : Bool} {op : HostOp} {ops : List HostOp} (h : HostCode.Closed ⟨m, op :: ops⟩) :
    HostCode.Closed ⟨op.maskedAfter m, ops⟩ := by
  obtain ⟨hown, hopen⟩ := h
  refine ⟨fun hops => hown ?_, Bool.eq_false_of_not_eq_true fun hops => Bool.eq_false_iff.1 hopen ?_⟩
  · rw [accessesMade_cons]
    exact entersAgain_of_sublist (List.sublist_append_right ..) hops
  · obtain ⟨pre, rest, n, rfl, hm, hn, hs⟩ := (openInside_iff ..).1 hops
    refine (openInside_iff ..).2 ⟨op :: pre, rest, n, rfl, hm, hn, .inr ?_⟩
    rw [← List.singleton_append, sequenceNumbers_append]
    exact List.mem_append_right _ (hs.resolve_left List.not_mem_nil)

/-- The runs of a host are numbered in the order in which they began, the running one last, and none has the next number. -/
def HostRun.Numbered (r : HostRun) : Prop := ((r.started + 1) :: r.running.piece :: r.below.map (·.piece)).Pairwise (· > ·)

/-- A return from a handler keeps the numbering. -/
theorem HostRun.Numbered.handlerEnd {a b : Activation} {below : List Activation} {started : Nat}
    (h : HostRun.Numbered ⟨a, b :: below, started⟩) : HostRun.Numbered ⟨b, below, started⟩ :=
  List.Pairwise.sublist (.cons_cons _ (List.sublist_cons_self ..)) h

/-- A handler that begins keeps the numbering. -/
theorem HostRun.Numbered.interrupt {a : Activation} {below : List Activation} {started : Nat} (c : HostCode)
    (h : HostRun.Numbered ⟨a, below, started⟩) : HostRun.Numbered ⟨⟨started + 1, c⟩, a :: below, started + 1⟩ := by
  refine List.pairwise_cons.2 ⟨fun n hn => ?_, h⟩
  obtain rfl | hn := List.mem_cons.1 hn
  · exact Nat.lt_succ_self _
  · exact Nat.lt_succ_of_lt ((List.pairwise_cons.1 h).1 n hn)

/-- An access still to come is left of a run that has begun, or belongs to one that has not. -/
theorem HostRun.Makes.mem_cases {p : HostProgram} {r : HostRun} {l : List SequencedAccess} (hl : r.Makes p l) {c : SequencedAccess}
    (hc : c ∈ l) : c ∈ r.left ∨ r.started < c.seq.piece := by
  induction hl with
  | stop r => cases hc
  | go piece m op ops below started l _ ih =>
    obtain hc | hc := List.mem_append.1 hc
    · exact .inl (by simp [HostRun.left, hc])
    · exact (ih hc).imp_left fun h => by simpa [HostRun.left] using .inr (by simpa [HostRun.left] using h)
  | handlerEnd piece m a below started l _ ih => simpa [HostRun.left] using ih hc
  | interrupt h piece ops below started l _ _ ih =>
    obtain hc | hc := ih hc
    · obtain hc | hc := List.mem_append.1 hc
      · exact .inr (by simp [piece_of_mem_accessesMade hc])
      · exact .inl hc
    · exact .inr (Nat.lt_of_succ_lt hc)

/-- An access still to come under the number of the running piece is one of those left of it. -/
theorem HostRun.Makes.mem_accessesMade {p : HostProgram} {r : HostRun} {l : List SequencedAccess} (hl : r.Makes p l) (hr : r.Numbered)
    {c : SequencedAccess} (hc : c ∈ l) (hpiece : c.seq.piece = r.running.piece) :
    c ∈ accessesMade r.running.piece r.running.code.ops := by
  obtain ⟨hstarted, hrunning, -⟩ : _ ∧ _ ∧ _ := (List.pairwise_cons.1 hr).imp_right List.pairwise_cons.1
  obtain hc | hc := hl.mem_cases hc
  · obtain hc | hc := List.mem_append.1 hc
    · exact hc
    · obtain ⟨a, ha, hca⟩ := List.mem_flatMap.1 hc
      have hlt : a.piece < r.running.piece := hrunning _ (List.mem_map_of_mem ha)
      exact absurd (hpiece.symm.trans (piece_of_mem_accessesMade hca)) hlt.ne'
  · have hlt : r.running.piece < r.started + 1 := hstarted _ List.mem_cons_self
    omega

/-- The running piece goes on for a while; its accesses after that are left over from a point at which a handler could run. -/
theorem HostRun.Makes.goes_on {p : HostProgram} {r : HostRun} {l : List SequencedAccess} (hl : r.Makes p l) (hr : r.Numbered) :
    ∃ (pre rest : List HostOp) (l' : List SequencedAccess), r.running.code.ops = pre ++ rest ∧ l = accessesMade r.running.piece pre ++ l' ∧
      ∀ c ∈ l', c.seq.piece = r.running.piece →
        maskedThrough r.running.code.masked pre = false ∧ c ∈ accessesMade r.running.piece rest := by
  induction hl with
  | stop r => exact ⟨[], _, [], rfl, rfl, fun c hc => by cases hc⟩
  | go piece m op ops below started l _ ih =>
    obtain ⟨pre, rest, l', rfl, rfl, hl'⟩ := ih hr
    exact ⟨op :: pre, rest, l', rfl, by simp, hl'⟩
  | handlerEnd piece m a below started l hl _ =>
    refine ⟨[], [], l, rfl, rfl, fun c hc hpiece => ?_⟩
    cases (HostRun.Makes.handlerEnd piece m a below started l hl).mem_accessesMade hr hc hpiece
  | interrupt h piece ops below started l hh hl _ =>
    exact ⟨[], ops, l, rfl, rfl, fun c hc hpiece =>
      ⟨rfl, (HostRun.Makes.interrupt h piece ops below started l hh hl).mem_accessesMade hr hc hpiece⟩⟩

/-- After an access of a closed piece no order comes back to its sequence from another one. -/
theorem not_comes_back {p : HostProgram} {piece n : Nat} {m : Bool} {x : HostAccess} {ops : List HostOp} {below : List Activation}
    {started : Nat} {l : List SequencedAccess} (hl : HostRun.Makes p ⟨⟨piece, ⟨m, ops⟩⟩, below, started⟩ l)
    (hr : HostRun.Numbered ⟨⟨piece, ⟨m, ops⟩⟩, below, started⟩) (hclosed : HostCode.Closed ⟨m, .access n x :: ops⟩)
    {j k : Nat} {b c : SequencedAccess} (hjk : j < k) (hb : l[j]? = some b) (hc : l[k]? = some c) (hbn : b.seq ≠ ⟨piece, n⟩) :
    c.seq ≠ ⟨piece, n⟩ := by
  intro hcn
  obtain ⟨hown, hopen⟩ := hclosed
  obtain ⟨pre, rest, l', rfl, rfl, hl'⟩ := hl.goes_on hr
  obtain hk | hk := Nat.lt_or_ge k (accessesMade piece pre).length
  · have hback : Spec.entersAgain (⟨⟨piece, n⟩, x⟩ :: accessesMade piece pre) := (entersAgain_cons_iff ..).2 (.inr
      ⟨j, k, b, c, hjk, List.getElem?_append_left (hjk.trans hk) ▸ hb, List.getElem?_append_left hk ▸ hc, hbn, hcn⟩)
    refine hown (entersAgain_accessesMade (piece := piece) 0 (entersAgain_of_sublist ?_ hback))
    simp [HostOp.made]
  · rw [List.getElem?_append_right hk] at hc
    obtain ⟨hm, hrest⟩ := hl' c (List.mem_of_getElem? hc) (congrArg SequenceId.piece hcn)
    refine Bool.eq_false_iff.1 hopen ((openInside_iff ..).2 ⟨.access n x :: pre, rest, n, rfl, hm, ?_, .inr ?_⟩)
    · exact (mem_sequenceNumbers_iff piece ..).2 ⟨c, hrest, hcn⟩
    · exact (mem_sequenceNumbers_iff piece ..).2 ⟨_, List.mem_cons_self, rfl⟩

/-- Where all pieces are closed no order enters a sequence again. -/
theorem HostRun.Makes.not_entersAgain {p : HostProgram} {r : HostRun} {l : List SequencedAccess} (hl : r.Makes p l) (hr : r.Numbered)
    (hp : ∀ h ∈ p.handlers, h.Closed) (hclosed : ∀ a ∈ r.running :: r.below, a.code.Closed) : ¬ Spec.entersAgain l := by
  induction hl with
  | stop r => simp [Spec.entersAgain]
  | go piece m op ops below started l hl ih =>
    obtain ⟨hrunning, hbelow⟩ := List.forall_mem_cons.1 hclosed
    have hrest : ¬ Spec.entersAgain l := ih hr (List.forall_mem_cons.2 ⟨hrunning.tail, hbelow⟩)
    match op with
    | .access n x =>
      refine fun h => ((entersAgain_cons_iff ..).1 h).elim hrest ?_
      rintro ⟨j, k, b, c, hjk, hb, hc, hbn, hcn⟩
      exact not_comes_back hl hr hrunning hjk hb hc hbn hcn
    | .maskInterrupts | .unmaskInterrupts => exact hrest
  | handlerEnd piece m a below started l _ ih => exact ih hr.handlerEnd (List.forall_mem_cons.1 hclosed).2
  | interrupt h piece ops below started l hh _ ih =>
    exact ih (hr.interrupt h) (List.forall_mem_cons.2 ⟨hp h hh, hclosed⟩)

/-! ### Courses of events that interleave -/

/-- Some course of events brings a piece that can run to its beginning. -/
theorem exists_order_begins {p : HostProgram} {c : HostCode} (hc : c ∈ p.foreground :: liveHandlers p) :
    ∃ (begin : List HostEvent) (l : List SequencedAccess) (piece started : Nat) (below : List Activation), piece ≤ started ∧
      ∀ events, hostOrder p (begin ++ events) = l ++ HostRun.order p ⟨⟨piece, c⟩, below, started⟩ events := by
  obtain rfl | hc := List.mem_cons.1 hc
  · exact ⟨[], [], 0, 0, [], le_rfl, fun _ => rfl⟩
  · obtain ⟨hmem, pre, rest, hops, hm⟩ := (mem_liveHandlers_iff p c).1 hc
    obtain ⟨k, hk⟩ := List.getElem?_of_mem hmem
    refine ⟨List.replicate pre.length HostEvent.go ++ [HostEvent.interrupt k], accessesMade 0 pre, 1, 1, [⟨0, ⟨false, rest⟩⟩],
      le_rfl, fun events => ?_⟩
    calc hostOrder p ((List.replicate pre.length HostEvent.go ++ [HostEvent.interrupt k]) ++ events)
      _ = HostRun.order p ⟨⟨0, ⟨p.foreground.masked, pre ++ rest⟩⟩, [], 0⟩
          (List.replicate pre.length HostEvent.go ++ HostEvent.interrupt k :: events) := by
        rw [← hops, List.append_assoc]
        rfl
      _ = accessesMade 0 pre ++ HostRun.order p ⟨⟨1, c⟩, [⟨0, ⟨false, rest⟩⟩], 1⟩ events := by
        rw [order_through, hm, order_interrupt hk]

/-- A piece runs to its end without an interrupt. -/
theorem order_to_end (p : HostProgram) (piece : Nat) (c : HostCode) (below : List Activation) (started : Nat) (events : List HostEvent) :
    HostRun.order p ⟨⟨piece, c⟩, below, started⟩ (List.replicate c.ops.length HostEvent.go ++ events) =
      accessesMade piece c.ops ++ HostRun.order p ⟨⟨piece, ⟨maskedThrough c.masked c.ops, []⟩⟩, below, started⟩ events := by
  simpa using order_through p events c.ops piece c.masked [] below started

/-- A handler runs where interrupts are unmasked, and the piece goes on to its end after it. -/
theorem exists_order_interrupted {p : HostProgram} {h : HostCode} (hh : h ∈ p.handlers) {m : Bool} {pre : List HostOp}
    (hm : maskedThrough m pre = false) (rest : List HostOp) (piece : Nat) (below : List Activation) (started : Nat) :
    ∃ events, HostRun.order p ⟨⟨piece, ⟨m, pre ++ rest⟩⟩, below, started⟩ events =
      accessesMade piece pre ++ (accessesMade (started + 1) h.ops ++ accessesMade piece rest) := by
  obtain ⟨k, hk⟩ := List.getElem?_of_mem hh
  refine ⟨List.replicate pre.length HostEvent.go ++ HostEvent.interrupt k :: (List.replicate h.ops.length HostEvent.go ++
    HostEvent.go :: (List.replicate rest.length HostEvent.go ++ [])), ?_⟩
  rw [order_through, hm, order_interrupt hk, order_to_end, order_return, order_to_end p piece ⟨false, rest⟩, HostRun.order,
    List.append_nil]

/-! ### What `canInterleave` decides -/

/-- The two ways in which sequences of a program can interleave. -/
theorem canInterleave_iff (p : HostProgram) :
    canInterleave p = true ↔ (∃ c ∈ p.foreground :: liveHandlers p, Spec.entersAgain (accessesMade 0 c.ops)) ∨
      ((∃ h ∈ liveHandlers p, accessesMade 0 h.ops ≠ []) ∧
        ∃ c ∈ p.foreground :: liveHandlers p, openInside c.masked [] c.ops = true) := by
  simp only [canInterleave, entersAgain_iff, Bool.or_eq_true, Bool.and_eq_true, List.any_eq_true, Bool.not_eq_true',
    List.isEmpty_eq_false_iff, ne_eq]

/-- A piece open inside a sequence is disturbed there by a handler that makes an access. -/
theorem exists_entersAgain_of_openInside {p : HostProgram} {c h : HostCode} (hopen : openInside c.masked [] c.ops = true)
    (hh : h ∈ p.handlers) (hmade : accessesMade 0 h.ops ≠ []) {piece started : Nat} (hle : piece ≤ started)
    (below : List Activation) : ∃ events, Spec.entersAgain (HostRun.order p ⟨⟨piece, c⟩, below, started⟩ events) := by
  obtain ⟨m, ops⟩ := c
  obtain ⟨pre, rest, n, rfl, hm, hrest, hpre⟩ := (openInside_iff m [] ops).1 hopen
  obtain ⟨events, horder⟩ := exists_order_interrupted hh hm rest piece below started
  obtain ⟨a, ha, han⟩ := (mem_sequenceNumbers_iff piece n pre).1 (hpre.resolve_left List.not_mem_nil)
  obtain ⟨c, hc, hcn⟩ := (mem_sequenceNumbers_iff piece n rest).1 hrest
  obtain ⟨b, hb⟩ : ∃ b, b ∈ accessesMade (started + 1) h.ops :=
    List.exists_mem_of_ne_nil _ (accessesMade_eq_map_inRun 0 (started + 1) h.ops ▸ List.map_eq_nil_iff.not.2 hmade)
  have hba : b.seq ≠ a.seq := fun hseq => by
    have hpiece : b.seq.piece = a.seq.piece := congrArg SequenceId.piece hseq
    rw [piece_of_mem_accessesMade ha, piece_of_mem_accessesMade hb] at hpiece
    omega
  exact ⟨events, horder ▸ entersAgain_append ha hb hc (han.trans hcn.symm) hba⟩

/-- A program of which sequences can interleave does interleave them in some course of events. -/
theorem exists_entersAgain_of_canInterleave {p : HostProgram} (h : canInterleave p = true) :
    ∃ events, Spec.entersAgain (hostOrder p events) := by
  have hreach {c : HostCode} (hc : c ∈ p.foreground :: liveHandlers p)
      (hagain : ∀ (piece started : Nat) (below : List Activation), piece ≤ started →
        ∃ events, Spec.entersAgain (HostRun.order p ⟨⟨piece, c⟩, below, started⟩ events)) :
      ∃ events, Spec.entersAgain (hostOrder p events) := by
    obtain ⟨begin, l, piece, started, below, hle, horder⟩ := exists_order_begins hc
    obtain ⟨events, hevents⟩ := hagain piece started below hle
    exact ⟨begin ++ events, horder events ▸ entersAgain_of_sublist (List.sublist_append_right ..) hevents⟩
  obtain ⟨c, hc, hown⟩ | ⟨⟨h, hh, hmade⟩, c, hc, hopen⟩ := (canInterleave_iff p).1 h
  · refine hreach hc fun piece started below _ => ⟨List.replicate c.ops.length HostEvent.go ++ [], ?_⟩
    rw [order_to_end]
    exact entersAgain_of_sublist (List.sublist_append_left ..) (entersAgain_accessesMade piece hown)
  · exact hreach hc fun piece started below hle =>
      exists_entersAgain_of_openInside hopen ((mem_liveHandlers_iff p h).1 hh).1 hmade hle below

/-- A program of which sequences cannot interleave interleaves none in any course of events. -/
theorem not_entersAgain_of_not_canInterleave {p : HostProgram} (h : canInterleave p = false) (events : List HostEvent) :
    ¬ Spec.entersAgain (hostOrder p events) := by
  rw [hostOrder_liveHandlers]
  have hmakes := HostRun.makes_order ⟨p.foreground, liveHandlers p⟩ events ⟨⟨0, p.foreground⟩, [], 0⟩
  obtain ⟨hown, hopen⟩ := not_or.1 ((canInterleave_iff p).not.1 (Bool.eq_false_iff.1 h))
  by_cases htouch : ∃ h ∈ liveHandlers p, accessesMade 0 h.ops ≠ []
  · have hclosed (c : HostCode) (hc : c ∈ p.foreground :: liveHandlers p) : c.Closed :=
      ⟨fun hagain => hown ⟨c, hc, hagain⟩, Bool.eq_false_of_not_eq_true fun hinside => hopen ⟨htouch, c, hc, hinside⟩⟩
    refine hmakes.not_entersAgain ?_ (fun c hc => hclosed c (List.mem_cons_of_mem _ hc)) ?_
    · simp [HostRun.Numbered]
    · simpa using hclosed p.foreground List.mem_cons_self
  · have hfirst := hmakes.isPrefix_left fun h hh piece => by
      rw [accessesMade_eq_map_inRun 0, List.map_eq_nil_iff]
      exact not_not.1 fun hmade => htouch ⟨h, hh, hmade⟩
    intro hagain
    exact hown ⟨p.foreground, List.mem_cons_self, by simpa [HostRun.left] using entersAgain_of_sublist hfirst.sublist hagain⟩

/-- `canInterleave` decides whether some course of events interleaves sequences. -/
theorem canInterleave_iff_exists_entersAgain (p : HostProgram) :
    canInterleave p = true ↔ ∃ events, Spec.entersAgain (hostOrder p events) := by
  refine ⟨exists_entersAgain_of_canInterleave, fun ⟨events, hagain⟩ => ?_⟩
  cases h : canInterleave p with
  | true => rfl
  | false => exact absurd hagain (not_entersAgain_of_not_canInterleave h events)

/-- The acts of an order, in the state that holds them. -/
theorem withInputs_orderInputs (order : List SequencedAccess) (s : State) :
    s.withInputs (orderInputs order) = { s with inputs := order.map (fun a => .host a.access) } := by
  rw [orderInputs, hostInputs, List.map_map]
  rfl

end Sys2Proof.Machine
end

section
/-! Proofs of the statements on reset and on host programs (70_reset_and_hazards.md): the reset input, and which programs are refused. -/

namespace Sys2Proof.Machine

/-- Settles O17: the step performs the level, and the reset input that is asserted, or was, restores every register. -/
theorem resetInputRestoresEveryRegister : Obligations.ResetInputRestoresEveryRegister := fun s level rest h =>
  calc step { s with inputs := .resetPin level :: rest }
    _ = .next (setResetPin level (s.withInputs rest)) := step_of_inputs_cons (i := .resetPin level) (rest := rest) rfl
    _ = .next { s with inputs := rest, resetAsserted := level, regs := State.reset.regs } :=
      congrArg Host.Outcome.next (setResetPin_of_asserted (s := s.withInputs rest) h)

/-- Settles O51: loading decides by `noInterleaving`, which is the statement's notion. -/
theorem interleavedProgramsAreRefused : Obligations.InterleavedProgramsAreRefused := by
  intro p s
  rw [loadProgram, entersAgain_iff, Bool.not_eq_false, withInputs_orderInputs]
  exact ⟨fun h => if_neg (Bool.eq_false_iff.1 h), fun h => if_pos h⟩

/-- Settles O55: loading decides by `canInterleave`, which asks whether some course of events interleaves. -/
theorem programsAHandlerCanDisturbAreRefused : Obligations.ProgramsAHandlerCanDisturbAreRefused := by
  intro p s
  rw [← canInterleave_iff_exists_entersAgain]
  refine ⟨fun h events => if_pos h, fun h events => ?_⟩
  rw [loadHostProgram, if_neg h, withInputs_orderInputs]

end Sys2Proof.Machine
end
